-- ==== Sys2Proof/Word.lean ====
section
/-! DEFINITION. The word types of the engine (spec 00_scope.md R3, R6; 30_encoding.md R50, R51). -/

namespace Sys2Proof

/-- A value, or an encoded word: 64 bits, unsigned (R3, R50; parameter W of R6). -/
abbrev Word := BitVec 64

/-- The tag of a word, which is a selector index 0 .. 15 (R12, R51; parameters TAG_W and NSEL of R6). -/
abbrev Tag := BitVec 4

/-- The payload of a word, bits 59..0 (R51; parameter PAYLOAD_W of R6). -/
abbrev Payload := BitVec 60

end Sys2Proof
end

