-- ==== Sys2Proof/Config.lean ====
section
/-! DEFINITION. What an implementation fixes: the numbers of the spec's parameter table (00_scope.md R6), its two OPEN
parameters, and the one free value of the model. -/

namespace Sys2Proof

/-- Number of entries of VOUT, index range 0 .. 239 (VOUT_CAP and MAXSLOTS of R6; R24, R30). -/
def Config.voutCapacity : Nat := 240

/-- The largest representable value, VMAX = 2^60 - 1 (R3, R6). -/
def Config.maxValue : Nat := 2 ^ 60 - 1

/-- The two orders in which a caller may store the bytes of a word (R32). -/
inductive ByteOrder where
  | littleEndian
  | bigEndian
  deriving DecidableEq, Repr, Inhabited

/-- STREAM_BYTE_ORDER, left OPEN by the spec (R6, R32, 92_eei_decisions.md D11): no body, and no definition of the model
reads it, because the engine has no bytes. -/
opaque Config.streamByteOrder : ByteOrder

/-- LATENCY, left OPEN by the spec (R6, R193, D24): no body, and no definition of the model reads it. -/
opaque Config.latency : Nat

/-- FREE VALUE. What entry `i` of VOUT holds after the `n`-th reset that abandoned a DECODE: the spec says only that it is
unspecified (70_reset_and_hazards.md R180, 93_implementation_defined.md U9; log entry 6, which says what
it depends on). No body: nothing can be proved of it. -/
opaque Config.freeVoutEntry : (n i : Nat) → Word

end Sys2Proof
end

