-- ==== Sys2Proof/Syntax.lean ====
section
/-! DEFINITION. The instructions: one constructor per row of spec/opcode_table.json (34 rows), and the notation for the
commands a host issues (30_encoding.md R62, R63, R64). -/

namespace Sys2Proof

/-- The operations of the engine. `encode` and `decode` are the two commands a host issues (R62). `packK` and `unpackK` are
the internal operations one of which ends every ENCODE and every DECODE (R63). An `unpackK` carries the payload of the word
it unpacks, because that word is its operand (`UNPACK.k word -> [..]`, R64); the tag is in the constructor. A `packK` carries
nothing: its operands are entries of VIN and its word is the result (`PACK.k [..] -> word`, R64). -/
inductive Instr where
  /-- ENCODE, command code 0 (R80). -/
  | encode
  /-- DECODE, command code 1 (R110). -/
  | decode
  /-- PACK.0, selector 0: 240 slots of 0 bits (R90). -/
  | pack0
  /-- PACK.1, selector 1: 120 slots of 0 bits (R91). -/
  | pack1
  /-- PACK.2, selector 2: 60 slots of 1 bit (R92). -/
  | pack2
  /-- PACK.3, selector 3: 30 slots of 2 bits (R93). -/
  | pack3
  /-- PACK.4, selector 4: 20 slots of 3 bits (R94). -/
  | pack4
  /-- PACK.5, selector 5: 15 slots of 4 bits (R95). -/
  | pack5
  /-- PACK.6, selector 6: 12 slots of 5 bits (R96). -/
  | pack6
  /-- PACK.7, selector 7: 10 slots of 6 bits (R97). -/
  | pack7
  /-- PACK.8, selector 8: 8 slots of 7 bits (R98). -/
  | pack8
  /-- PACK.9, selector 9: 7 slots of 8 bits (R99). -/
  | pack9
  /-- PACK.10, selector 10: 6 slots of 10 bits (R100). -/
  | pack10
  /-- PACK.11, selector 11: 5 slots of 12 bits (R101). -/
  | pack11
  /-- PACK.12, selector 12: 4 slots of 15 bits (R102). -/
  | pack12
  /-- PACK.13, selector 13: 3 slots of 20 bits (R103). -/
  | pack13
  /-- PACK.14, selector 14: 2 slots of 30 bits (R104). -/
  | pack14
  /-- PACK.15, selector 15: 1 slot of 60 bits (R105). -/
  | pack15
  /-- UNPACK.0, the word with tag 0 and this payload (R120). -/
  | unpack0 (payload : Payload)
  /-- UNPACK.1, the word with tag 1 and this payload (R121). -/
  | unpack1 (payload : Payload)
  /-- UNPACK.2, the word with tag 2 and this payload (R122). -/
  | unpack2 (payload : Payload)
  /-- UNPACK.3, the word with tag 3 and this payload (R123). -/
  | unpack3 (payload : Payload)
  /-- UNPACK.4, the word with tag 4 and this payload (R124). -/
  | unpack4 (payload : Payload)
  /-- UNPACK.5, the word with tag 5 and this payload (R125). -/
  | unpack5 (payload : Payload)
  /-- UNPACK.6, the word with tag 6 and this payload (R126). -/
  | unpack6 (payload : Payload)
  /-- UNPACK.7, the word with tag 7 and this payload (R127). -/
  | unpack7 (payload : Payload)
  /-- UNPACK.8, the word with tag 8 and this payload (R128). -/
  | unpack8 (payload : Payload)
  /-- UNPACK.9, the word with tag 9 and this payload (R129). -/
  | unpack9 (payload : Payload)
  /-- UNPACK.10, the word with tag 10 and this payload (R130). -/
  | unpack10 (payload : Payload)
  /-- UNPACK.11, the word with tag 11 and this payload (R131). -/
  | unpack11 (payload : Payload)
  /-- UNPACK.12, the word with tag 12 and this payload (R132). -/
  | unpack12 (payload : Payload)
  /-- UNPACK.13, the word with tag 13 and this payload (R133). -/
  | unpack13 (payload : Payload)
  /-- UNPACK.14, the word with tag 14 and this payload (R134). -/
  | unpack14 (payload : Payload)
  /-- UNPACK.15, the word with tag 15 and this payload (R135). -/
  | unpack15 (payload : Payload)
  deriving DecidableEq, Repr

/-- A command with its operands, in the notation of R64: `ENCODE count, [v0, ...]` or `DECODE word=w`. Placing one in the
operand registers and in VIN is the host's part (Machine/HostPort.lean). -/
inductive Command where
  | encode (count : BitVec 64) (values : List Word)
  | decode (word : Word)
  deriving DecidableEq, Repr

end Sys2Proof
end

