-- ==== Sys2Proof/WellFormed.lean ====
section
/-! DEFINITION. Well-formedness. The engine has no illegal command and no illegal word (30_encoding.md R58, R62), so every
term of Instr is well formed; a host's command is checked for the one thing its notation can get wrong. -/

namespace Sys2Proof

/-- Every instruction is well formed: both command codes are legal (R62), every word is a legal operand of its UNPACK.k, with
its unused bits at any value (R58), and PACK.k has no operand of its own (R63). -/
def Instr.wellFormed : Instr → Bool
  | .encode | .decode => true
  | .pack0 | .pack1 | .pack2 | .pack3 | .pack4 | .pack5 | .pack6 | .pack7 | .pack8 | .pack9 | .pack10 | .pack11 | .pack12 | .pack13 | .pack14 | .pack15 => true
  | .unpack0 _ | .unpack1 _ | .unpack2 _ | .unpack3 _ | .unpack4 _ | .unpack5 _ | .unpack6 _ | .unpack7 _ | .unpack8 _ | .unpack9 _ | .unpack10 _ | .unpack11 _ | .unpack12 _ | .unpack13 _ | .unpack14 _ | .unpack15 _ => true

/-- An ENCODE command as R64 writes it is well formed when it lists exactly `count` values; a DECODE always is. -/
def Command.wellFormed : Command → Bool
  | .encode count values => values.length == count.toNat
  | .decode _ => true

end Sys2Proof
end

