-- ==== Sys2Proof/Decode.lean ====
section
/-! DEFINITION. Encodings: the fields of a word, the decoder and the encoder (30_encoding.md R50 to R63,
spec/opcode_table.json). -/

namespace Sys2Proof

/-- Bits 63..60 of a word (R51: `word >> 60`). -/
def tagOf (w : Word) : Tag := w.extractLsb' 60 4

/-- Bits 59..0 of a word (R51). -/
def payloadOf (w : Word) : Payload := w.extractLsb' 0 60

/-- A tag at bits 63..60 over sixty zero bits: `k << 60` (R57). -/
def tagBits (k : Tag) : Word := (k.setWidth 64) <<< 60

/-- The word `tag over payload` (R51, R57): `(k << 60) | payload`. -/
def mkWord (k : Tag) (p : Payload) : Word := tagBits k ||| p.setWidth 64

/-- The three places an encoding of the opcode table stands in: the command register OP (format CMD), the word a DECODE is
given in WIN (rows UNPACK.k), the word an ENCODE leaves in WOUT (rows PACK.k) (R62, R63). -/
inductive Encoding where
  | command (op : BitVec 1)
  | inputWord (w : Word)
  | outputWord (w : Word)
  deriving DecidableEq, Repr

/-- OP = 0 is ENCODE, OP = 1 is DECODE (R14, R62). -/
def decodeCommand (op : BitVec 1) : Instr :=
  if op = 0#1 then .encode else .decode

/-- The UNPACK.k a DECODE of this word performs: k is the tag, and the payload is kept whole (R63, R111). -/
def decodeInputWord (w : Word) : Instr :=
  match (tagOf w).toNat with
  | 0 => .unpack0 (payloadOf w)
  | 1 => .unpack1 (payloadOf w)
  | 2 => .unpack2 (payloadOf w)
  | 3 => .unpack3 (payloadOf w)
  | 4 => .unpack4 (payloadOf w)
  | 5 => .unpack5 (payloadOf w)
  | 6 => .unpack6 (payloadOf w)
  | 7 => .unpack7 (payloadOf w)
  | 8 => .unpack8 (payloadOf w)
  | 9 => .unpack9 (payloadOf w)
  | 10 => .unpack10 (payloadOf w)
  | 11 => .unpack11 (payloadOf w)
  | 12 => .unpack12 (payloadOf w)
  | 13 => .unpack13 (payloadOf w)
  | 14 => .unpack14 (payloadOf w)
  | _ => .unpack15 (payloadOf w)

/-- The PACK.k that a word in WOUT records: k is the tag (R63). The payload is the operation's result, no operand of it. -/
def decodeOutputWord (w : Word) : Instr :=
  match (tagOf w).toNat with
  | 0 => .pack0
  | 1 => .pack1
  | 2 => .pack2
  | 3 => .pack3
  | 4 => .pack4
  | 5 => .pack5
  | 6 => .pack6
  | 7 => .pack7
  | 8 => .pack8
  | 9 => .pack9
  | 10 => .pack10
  | 11 => .pack11
  | 12 => .pack12
  | 13 => .pack13
  | 14 => .pack14
  | _ => .pack15

/-- The instruction an encoding stands for. Total: all 2 command codes and all 16 tags are defined (R58, R60, R62). -/
def decodeInstr : Encoding → Instr
  | .command op => decodeCommand op
  | .inputWord w => decodeInputWord w
  | .outputWord w => decodeOutputWord w

/-- Why raw bits are no encoding of the engine. -/
inductive DecodeError where
  /-- A command code other than 0 and 1: OP is one bit and "There is no other value" (R14). -/
  | noSuchCommand
  /-- A number that does not fit the 64 bits of a word (R50). -/
  | wordTooWide
  /-- A length that is neither the command's nor a word's (R50, R62). -/
  | noSuchLength
  deriving DecidableEq, Repr

/-- Decodes raw bits of a given length: up to one byte is a command code, 64 bits are a word given to DECODE; anything
else is rejected by name. -/
def decodeRaw (nbits w : Nat) : Except DecodeError Instr :=
  if 1 ≤ nbits ∧ nbits ≤ 8 then
    if w ≤ 1 then .ok (decodeInstr (.command (BitVec.ofNat 1 w))) else .error .noSuchCommand
  else if nbits = 64 then
    if w < 2 ^ 64 then .ok (decodeInstr (.inputWord (BitVec.ofNat 64 w))) else .error .wordTooWide
  else .error .noSuchLength

/-- The decoder on a row of spec/opcode_table.json. A 64-bit row is read as the word a DECODE is given, hence as UNPACK.k: the
rows PACK.k have the same bits, and are patterns of an output, which no host can issue (R63; log entry 4). -/
def decodeTableWord (nbits w : Nat) : Option Instr :=
  match decodeRaw nbits w with
  | .ok i => some i
  | .error _ => none

/-- The encoder, from the opcode table: the command code of ENCODE and DECODE, the whole word of an UNPACK.k, and the table's
match pattern of a PACK.k (its payload is written by the operation, R57). -/
def encodeInstr : Instr → Encoding
  | .encode => .command 0#1
  | .decode => .command 1#1
  | .pack0 => .outputWord (mkWord 0#4 0#60)
  | .pack1 => .outputWord (mkWord 1#4 0#60)
  | .pack2 => .outputWord (mkWord 2#4 0#60)
  | .pack3 => .outputWord (mkWord 3#4 0#60)
  | .pack4 => .outputWord (mkWord 4#4 0#60)
  | .pack5 => .outputWord (mkWord 5#4 0#60)
  | .pack6 => .outputWord (mkWord 6#4 0#60)
  | .pack7 => .outputWord (mkWord 7#4 0#60)
  | .pack8 => .outputWord (mkWord 8#4 0#60)
  | .pack9 => .outputWord (mkWord 9#4 0#60)
  | .pack10 => .outputWord (mkWord 10#4 0#60)
  | .pack11 => .outputWord (mkWord 11#4 0#60)
  | .pack12 => .outputWord (mkWord 12#4 0#60)
  | .pack13 => .outputWord (mkWord 13#4 0#60)
  | .pack14 => .outputWord (mkWord 14#4 0#60)
  | .pack15 => .outputWord (mkWord 15#4 0#60)
  | .unpack0 p => .inputWord (mkWord 0#4 p)
  | .unpack1 p => .inputWord (mkWord 1#4 p)
  | .unpack2 p => .inputWord (mkWord 2#4 p)
  | .unpack3 p => .inputWord (mkWord 3#4 p)
  | .unpack4 p => .inputWord (mkWord 4#4 p)
  | .unpack5 p => .inputWord (mkWord 5#4 p)
  | .unpack6 p => .inputWord (mkWord 6#4 p)
  | .unpack7 p => .inputWord (mkWord 7#4 p)
  | .unpack8 p => .inputWord (mkWord 8#4 p)
  | .unpack9 p => .inputWord (mkWord 9#4 p)
  | .unpack10 p => .inputWord (mkWord 10#4 p)
  | .unpack11 p => .inputWord (mkWord 11#4 p)
  | .unpack12 p => .inputWord (mkWord 12#4 p)
  | .unpack13 p => .inputWord (mkWord 13#4 p)
  | .unpack14 p => .inputWord (mkWord 14#4 p)
  | .unpack15 p => .inputWord (mkWord 15#4 p)

end Sys2Proof
end

