-- ==== Sys2Proof/Machine/State.lean ====
section
/-! DEFINITION. The state of one engine and of the two memories it is given (10_state.md), why a step can stop, and the state
after reset. -/

namespace Sys2Proof.Machine

/-- A register with the written/unwritten mark the spec gives it: "A result register is either *written* (it holds the value
a command put there) or *unwritten* (it holds no value)" (R22), the mark being part of the engine's state (R25) and
`unwritten` being the reset value the spec states for every register (R27). `unwritten` "is not a number" (00_scope.md 5.2). -/
inductive Reg (w : Nat) where
  | unwritten
  | written (v : BitVec w)
  deriving DecidableEq, Repr

/-- A memory indexed by entry: pairs of an index and the 64-bit entry there. The unit is the entry, because VIN and VOUT have
no bytes (R30, R31, R32). Canonical form: indexes strictly rising (`Memory.wf`). An index that is not listed reads as no
value: the host has put nothing there (R23, R27; log entry 2). -/
abbrev Memory := List (Nat × Word)

/-- Where a command is in its life: none in progress, or one issued with this sampled OP and not completed (R27, R182). -/
inductive Phase where
  | idle
  | busy (op : BitVec 1)
  deriving DecidableEq, Repr

/-- The operand registers (R14, R15, R16). -/
inductive OperandReg where
  | op
  | count
  | win
  deriving DecidableEq, Repr

/-- The result registers (R17 to R20). -/
inductive ResultReg where
  | wout
  | consumed
  | produced
  | status
  deriving DecidableEq, Repr

/-- The engine's state between commands is "the operand registers, the result registers with their written/unwritten marks,
and nothing else" (R25); beside them stand the two memories the host gives it (R21), whether a command is in progress
(R27), and one counter of the model's own. SELTAB is a constant (R10), in Machine/SelTab.lean.

DESIGN CHOICE (log entry 16): VIN and VOUT are two separate fields. Whether one engine's VIN and VOUT overlap in the host's
own memory "is the host's affair" (R30); here they do not, so a DECODE never changes what a later ENCODE reads. -/
structure State where
  /-- OP, 1 bit: 0 selects ENCODE, 1 DECODE (R14). -/
  op : Reg 1
  /-- COUNT, 64 bits (R15). -/
  count : Reg 64
  /-- WIN, 64 bits (R16). -/
  win : Reg 64
  /-- WOUT, 64 bits (R17). -/
  wout : Reg 64
  /-- CONSUMED, 8 bits (R18). -/
  consumed : Reg 8
  /-- PRODUCED, 8 bits (R19). -/
  produced : Reg 8
  /-- STATUS, 1 bit, the flag ERR (R20). -/
  status : Reg 1
  /-- VIN, the input value memory (R23). -/
  vin : Memory
  /-- VOUT, the output value memory (R24). -/
  vout : Memory
  /-- The command in progress (R27, R182). -/
  phase : Phase
  /-- THE MODEL'S OWN: how many times VOUT has been given free values by a reset during a DECODE (R180; log entry 6). -/
  freeCount : Nat
  deriving DecidableEq, Repr

/-- What stops the machine with a fault: a host error the spec tells a model to make a fault. All are SAFE: the run ends and
nothing can be proved past it. No command raises one; only the host's reads and writes do (Machine/HostPort.lean). -/
inductive Fault where
  /-- Raised by a host read of a result register that is unwritten (R22; 93_implementation_defined.md U2, U7). Safe. -/
  | resultUnwritten (r : ResultReg)
  /-- Raised by a host access to VOUT at an index the memory does not have, 240 or more (R24, R30). Safe. -/
  | voutIndex (i : Nat)
  /-- Raised by a host read of a VOUT entry whose contents the spec calls unspecified: nothing has written it (R27; log
  entry 2). Safe. -/
  | voutUnspecified (i : Nat)
  deriving DecidableEq, Repr

/-- Why the model gives a step no meaning. -/
inductive Refusal where
  /-- The arm of an instruction that has no meaning yet. No arm of exec answers it: every instruction is modelled. Safe. -/
  | notModelled (mnemonic : String)
  /-- Raised by a command, or its issue, that reads an operand register the host has not written: "a host error with no defined result; a
  model should refuse it" (R27). Safe. -/
  | operandUnwritten (r : OperandReg)
  /-- Raised by an ENCODE, its issue, or a PACK.k for which VIN holds fewer than COUNT values (R23; U5: refuse). Safe. -/
  | vinShort
  /-- Raised by a PACK.k asked for on its own outside its precondition eligible(k) (R86; U4, D23: refuse). Safe. -/
  | packNotEligible (k : Tag)
  /-- Raised by an issue while a command is in progress (R182; U10: refuse). Safe. -/
  | commandInProgress
  /-- Raised by a completion when no command was issued: completion follows issue (R182). Safe. -/
  | noCommandInProgress
  /-- Raised by a host write of OP, COUNT, WIN or VIN[0 .. COUNT-1] during a command (R39, R191; U6: refuse). Safe. -/
  | operandChanged
  /-- Raised by a host access to VOUT during a command (R40, R191; U6: refuse). Safe. -/
  | voutTouched
  deriving DecidableEq, Repr

/-- What an operation answers: a result, a fault or a refusal. -/
abbrev Answer (α : Type) := Host.Outcome α Fault Refusal

/-- The machine right after reset (R27, R180): every operand and result register unwritten, no command in progress. VIN and
VOUT are the host's; nothing is listed in them. `freeCount` is the model's own and its 0 is a DESIGN CHOICE (log entry 6). -/
def State.reset : State where
  op := .unwritten
  count := .unwritten
  win := .unwritten
  wout := .unwritten
  consumed := .unwritten
  produced := .unwritten
  status := .unwritten
  vin := []
  vout := []
  phase := .idle
  freeCount := 0

end Sys2Proof.Machine
end

