-- ==== Sys2Proof/Machine/SelTab.lean ====
section
/-! DEFINITION. The selector table SELTAB and its two operations LOOKUP and ORDERED (10_state.md R10 to R13,
40_selector_table.md R70 to R74). -/

namespace Sys2Proof.Machine

/-- One descriptor: slot count and bit width. The `index` of the record is the entry's own position (R10). -/
structure Descriptor where
  slotCount : Nat
  bitWidth : Nat
  deriving DecidableEq, Repr

/-- The contents of SELTAB, a constant that no command, no host access and no reset changes (R10, R11). -/
def selTab : Vector Descriptor 16 :=
  #v[⟨240, 0⟩, ⟨120, 0⟩, ⟨60, 1⟩, ⟨30, 2⟩, ⟨20, 3⟩, ⟨15, 4⟩, ⟨12, 5⟩, ⟨10, 6⟩,
     ⟨8, 7⟩, ⟨7, 8⟩, ⟨6, 10⟩, ⟨5, 12⟩, ⟨4, 15⟩, ⟨3, 20⟩, ⟨2, 30⟩, ⟨1, 60⟩]

/-- LOOKUP: the descriptor at a selector index. Every 4-bit index is valid (R70). -/
def lookup (k : Tag) : Descriptor := selTab.get ⟨k.toNat, k.isLt⟩

/-- The selector indexes in preference order, which is index order (R12, R71, R84). -/
def scanOrder : List Tag := [0, 1, 2, 3, 4, 5, 6, 7, 8, 9, 10, 11, 12, 13, 14, 15]

/-- ORDERED: the descriptors in packing-preference order (R71). -/
def ordered : List Descriptor := scanOrder.map lookup

end Sys2Proof.Machine
end

