-- ==== Sys2Proof/Machine/Flags.lean ====
section
/-! DEFINITION. The engine's only flag, STATUS.ERR (10_state.md R20). -/

namespace Sys2Proof.Machine

/-- STATUS after a command without error: OK = 0 (R20). -/
def statusOk : BitVec 1 := 0#1

/-- STATUS after an ENCODE that raised OutOfRange: 1 (R20, R160). -/
def statusOutOfRange : BitVec 1 := 1#1

/-- The flag ERR, bit 0 of STATUS (R20). -/
def errOf (status : BitVec 1) : Bool := status.getLsbD 0

end Sys2Proof.Machine
end

