-- ==== Sys2Proof/Machine/Operands.lean ====
section
/-! DEFINITION. The operands of the datapath: fields of a word, the fit test, eligibility, the selection, packing and
unpacking, as pure functions of the values and of the constant table (00_scope.md R8; 30_encoding.md section 2;
41_encode.md; 42_decode.md). -/

namespace Sys2Proof.Machine

/-- The largest value of `b` bits, `mask(b) = 2^b - 1` (00_scope.md 5.1; last column of R11). -/
def mask (b : Nat) : Nat := 2 ^ b - 1

/-- The fit test: a value fits selector k >= 2 when it is at most mask(b_k), and selectors 0 and 1 when it is 1 (R72). -/
def fits (k : Tag) (v : Word) : Bool :=
  if (lookup k).bitWidth = 0 then v == 1#64 else decide (v.toNat ≤ mask (lookup k).bitWidth)

/-- The least selector k >= 2 that a value fits, where there is one (the table of R72). -/
def leastFit (v : Word) : Option Tag := (scanOrder.drop 2).find? (fits · v)

/-- The values the test of selector k looks at: all of them for a zero-width selector, else the first n_k (R82, R83). -/
def testedValues (k : Tag) (vs : List Word) : List Word :=
  if (lookup k).bitWidth = 0 then vs else vs.take (lookup k).slotCount

/-- eligible(k) for the values VIN[0 .. COUNT-1]: enough of them, and all tested ones fit (R82). -/
def eligible (k : Tag) (vs : List Word) : Bool :=
  decide ((lookup k).slotCount ≤ vs.length) && (testedValues k vs).all (fits k)

/-- The selection: the first eligible selector in preference order (R84), none where no selector is eligible (R85). -/
def select (vs : List Word) : Option Tag := scanOrder.find? (eligible · vs)

/-- The payload bits that the values contribute, the first of them in slot `i`: each is shifted to its slot (R57). -/
def fieldBits (b : Nat) : (i : Nat) → List Word → Word
  | _, [] => 0#64
  | i, v :: vs => (v <<< (i * b)) ||| fieldBits b (i + 1) vs

/-- The word PACK(k) makes of the values: the tag, and for b_k > 0 the first n_k values in their slots (R57, R86). -/
def packWord (k : Tag) (vs : List Word) : Word :=
  if (lookup k).bitWidth = 0 then tagBits k
  else tagBits k ||| fieldBits (lookup k).bitWidth 0 (vs.take (lookup k).slotCount)

/-- The value of slot `i` of a word read at bit width `b`: the constant 1 for b = 0, else the field, zero extended (R56). -/
def slotValue (b i : Nat) (w : Word) : Word :=
  if b = 0 then 1#64 else (w >>> (i * b)) &&& BitVec.ofNat 64 (mask b)

/-- The n_k values UNPACK(k) writes for a word with tag k (R112). -/
def unpackValues (w : Word) : List Word :=
  (List.range (lookup (tagOf w)).slotCount).map (slotValue (lookup (tagOf w)).bitWidth · w)

/-- A word is canonical if its unused bits, the payload bits at or above n_k * b_k, are all 0 (R55, R59). -/
def canonical (w : Word) : Bool :=
  decide ((payloadOf w).toNat < 2 ^ ((lookup (tagOf w)).slotCount * (lookup (tagOf w)).bitWidth))

end Sys2Proof.Machine
end

