-- ==== Sys2Proof/Machine/Ops.lean ====
section
/-! DEFINITION. The named operations over memories and registers that the meanings are made of: entry reads and writes, the
operands of ENCODE, what an issue clears, what each kind of completion writes, and raising OutOfRange. -/

namespace Sys2Proof.Machine

/-- Runs the second operation on the result of the first, and keeps a fault or a refusal. -/
def Answer.andThen {α β : Type} (a : Answer α) (f : α → Answer β) : Answer β :=
  match a with
  | .next x => f x
  | .fault r => .fault r
  | .refused r => .refused r

/-- The result, where there is one. -/
def Answer.result? {α : Type} : Answer α → Option α
  | .next x => some x
  | _ => none

/-- The canonical form of a memory: indexes strictly rising. (No entry equals what an unlisted index reads as, since that is
no value.) -/
abbrev Memory.wf (m : Memory) : Prop := (m.map Prod.fst).Pairwise (· < ·)

/-- Every index listed is below `n`. -/
abbrev Memory.below (n : Nat) (m : Memory) : Prop := ∀ e ∈ m, e.1 < n

/-- MemRead of one entry (R34): none where the host has put nothing there. -/
def Memory.read : Memory → Nat → Option Word
  | [], _ => none
  | (a, v) :: rest, i => if a = i then some v else Memory.read rest i

/-- MemWrite of one entry (R34). -/
def Memory.write : Memory → Nat → Word → Memory
  | [], i, v => [(i, v)]
  | (a, u) :: rest, i, v =>
    if i < a then (i, v) :: (a, u) :: rest
    else if i = a then (i, v) :: rest
    else (a, u) :: Memory.write rest i v

/-- Writes values to consecutive entries, the first at index `i`. The order is not observable (R24). -/
def Memory.writeFrom (m : Memory) : (i : Nat) → List Word → Memory
  | _, [] => m
  | i, v :: vs => Memory.write (Memory.writeFrom m (i + 1) vs) i v

/-- The memory that holds exactly these values from index `i` on. -/
def Memory.ofList : (i : Nat) → List Word → Memory
  | _, [] => []
  | i, v :: vs => (i, v) :: Memory.ofList (i + 1) vs

/-- The values of the unbroken run of entries that starts at index `i`. -/
def Memory.runFrom : (i : Nat) → Memory → List Word
  | _, [] => []
  | i, (a, v) :: rest => if a = i then v :: Memory.runFrom (i + 1) rest else []

/-- Entries 0 .. c-1, where the memory holds them all. -/
def Memory.firstN (m : Memory) (c : Nat) : Option (List Word) :=
  if c ≤ (Memory.runFrom 0 m).length then some ((Memory.runFrom 0 m).take c) else none

/-- The operands of ENCODE: the COUNT values VIN[0 .. COUNT-1] (R15, R23, R80). Refused where COUNT is unwritten (R27) or
VIN holds fewer values (U5). -/
def encodeInput (s : State) : Except Refusal (List Word) :=
  match s.count with
  | .unwritten => .error (.operandUnwritten .count)
  | .written c =>
    match Memory.firstN s.vin c.toNat with
    | none => .error .vinShort
    | some vs => .ok vs

/-- What the issue of any command does to the result registers: all four become unwritten (R22). -/
def clearResults (s : State) : State :=
  { s with wout := .unwritten, consumed := .unwritten, produced := .unwritten, status := .unwritten }

/-- An ENCODE completes without error: WOUT, CONSUMED and STATUS are written (R81, R86). -/
def completeEncode (w : Word) (n : Nat) (s : State) : State :=
  { s with wout := .written w, consumed := .written (BitVec.ofNat 8 n), status := .written statusOk }

/-- PACK(k), the generic pack (R86), on values for which k is eligible. -/
def pack (k : Tag) (vs : List Word) (s : State) : State :=
  completeEncode (packWord k vs) (lookup k).slotCount s

/-- `raise OutOfRange()`, the engine's only exception (R162): ERR is 1, WOUT and CONSUMED hold no value, nothing else
changes. No state is saved and control goes nowhere, so there is no return from it (R168). -/
def raiseOutOfRange (s : State) : State :=
  { s with wout := .unwritten, consumed := .unwritten, status := .written statusOutOfRange }

/-- A DECODE completes: VOUT[0 .. n-1], PRODUCED and STATUS are written (R112, R114). -/
def completeDecode (us : List Word) (s : State) : State :=
  { s with vout := Memory.writeFrom s.vout 0 us, produced := .written (BitVec.ofNat 8 us.length), status := .written statusOk }

/-- UNPACK of a word by its tag, the generic unpack (R112). -/
def unpack (w : Word) (s : State) : State := completeDecode (unpackValues w) s

/-- PACK.k asked for on its own: done under its precondition, refused outside it (R86; U4, D23). -/
def packAt (k : Tag) (s : State) : Answer State :=
  match encodeInput s with
  | .error r => .refused r
  | .ok vs => if eligible k vs then .next (pack k vs s) else .refused (.packNotEligible k)

end Sys2Proof.Machine
end

