-- ==== Sys2Proof/Machine/DecodeCommand.lean ====
section
/-! DEFINITION. The DECODE command (42_decode.md R110 to R118). -/

namespace Sys2Proof.Machine

/-- DECODE (R116): UNPACK of the word in WIN by its tag. All result registers are cleared at issue, so WOUT and CONSUMED are
unwritten afterwards (R22, R114). It cannot fail (R115); with WIN unwritten it was not issued by the rules (R27). -/
def execDecode (s : State) : Answer State :=
  match s.win with
  | .unwritten => .refused (.operandUnwritten .win)
  | .written w => .next (unpack w (clearResults s))

end Sys2Proof.Machine
end

