-- ==== Sys2Proof/Machine/EncodeCommand.lean ====
section
/-! DEFINITION. The ENCODE command (41_encode.md R80 to R89). -/

namespace Sys2Proof.Machine

/-- ENCODE (R88): the empty-input test, then the scan, then the PACK of the selector found, or OutOfRange. All result registers
are cleared at issue, so PRODUCED is unwritten afterwards (R22, R87). -/
def execEncode (s : State) : Answer State :=
  match encodeInput s with
  | .error r => .refused r
  | .ok [] => .next (completeEncode 0#64 0 (clearResults s))
  | .ok (v :: vs) =>
    match select (v :: vs) with
    | some k => .next (pack k (v :: vs) (clearResults s))
    | none => .next (raiseOutOfRange (clearResults s))

end Sys2Proof.Machine
end

