-- ==== Sys2Proof/Machine/Pack.lean ====
section
/-! DEFINITION. PACK.0 to PACK.15 (41_encode.md R90 to R105): the generic pack at each selector (40_selector_table.md R74). -/

namespace Sys2Proof.Machine

/-- PACK.0: 240 slots of 0 bits (R90). -/
def execPack0 (s : State) : Answer State := packAt 0#4 s

/-- PACK.1: 120 slots of 0 bits (R91). -/
def execPack1 (s : State) : Answer State := packAt 1#4 s

/-- PACK.2: 60 slots of 1 bit (R92). -/
def execPack2 (s : State) : Answer State := packAt 2#4 s

/-- PACK.3: 30 slots of 2 bits (R93). -/
def execPack3 (s : State) : Answer State := packAt 3#4 s

/-- PACK.4: 20 slots of 3 bits (R94). -/
def execPack4 (s : State) : Answer State := packAt 4#4 s

/-- PACK.5: 15 slots of 4 bits (R95). -/
def execPack5 (s : State) : Answer State := packAt 5#4 s

/-- PACK.6: 12 slots of 5 bits (R96). -/
def execPack6 (s : State) : Answer State := packAt 6#4 s

/-- PACK.7: 10 slots of 6 bits (R97). -/
def execPack7 (s : State) : Answer State := packAt 7#4 s

/-- PACK.8: 8 slots of 7 bits (R98). -/
def execPack8 (s : State) : Answer State := packAt 8#4 s

/-- PACK.9: 7 slots of 8 bits (R99). -/
def execPack9 (s : State) : Answer State := packAt 9#4 s

/-- PACK.10: 6 slots of 10 bits (R100). -/
def execPack10 (s : State) : Answer State := packAt 10#4 s

/-- PACK.11: 5 slots of 12 bits (R101). -/
def execPack11 (s : State) : Answer State := packAt 11#4 s

/-- PACK.12: 4 slots of 15 bits (R102). -/
def execPack12 (s : State) : Answer State := packAt 12#4 s

/-- PACK.13: 3 slots of 20 bits (R103). -/
def execPack13 (s : State) : Answer State := packAt 13#4 s

/-- PACK.14: 2 slots of 30 bits (R104). -/
def execPack14 (s : State) : Answer State := packAt 14#4 s

/-- PACK.15: 1 slot of 60 bits (R105). -/
def execPack15 (s : State) : Answer State := packAt 15#4 s

end Sys2Proof.Machine
end

