-- ==== Sys2Proof/Machine/Unpack.lean ====
section
/-! DEFINITION. UNPACK.0 to UNPACK.15 (42_decode.md R120 to R135): the generic unpack of the word with each tag
(40_selector_table.md R74). Total: no word is rejected (R58, R115). -/

namespace Sys2Proof.Machine

/-- UNPACK.0: 240 slots of 0 bits (R120). -/
def execUnpack0 (p : Payload) (s : State) : Answer State := .next (unpack (mkWord 0#4 p) s)

/-- UNPACK.1: 120 slots of 0 bits (R121). -/
def execUnpack1 (p : Payload) (s : State) : Answer State := .next (unpack (mkWord 1#4 p) s)

/-- UNPACK.2: 60 slots of 1 bit (R122). -/
def execUnpack2 (p : Payload) (s : State) : Answer State := .next (unpack (mkWord 2#4 p) s)

/-- UNPACK.3: 30 slots of 2 bits (R123). -/
def execUnpack3 (p : Payload) (s : State) : Answer State := .next (unpack (mkWord 3#4 p) s)

/-- UNPACK.4: 20 slots of 3 bits (R124). -/
def execUnpack4 (p : Payload) (s : State) : Answer State := .next (unpack (mkWord 4#4 p) s)

/-- UNPACK.5: 15 slots of 4 bits (R125). -/
def execUnpack5 (p : Payload) (s : State) : Answer State := .next (unpack (mkWord 5#4 p) s)

/-- UNPACK.6: 12 slots of 5 bits (R126). -/
def execUnpack6 (p : Payload) (s : State) : Answer State := .next (unpack (mkWord 6#4 p) s)

/-- UNPACK.7: 10 slots of 6 bits (R127). -/
def execUnpack7 (p : Payload) (s : State) : Answer State := .next (unpack (mkWord 7#4 p) s)

/-- UNPACK.8: 8 slots of 7 bits (R128). -/
def execUnpack8 (p : Payload) (s : State) : Answer State := .next (unpack (mkWord 8#4 p) s)

/-- UNPACK.9: 7 slots of 8 bits (R129). -/
def execUnpack9 (p : Payload) (s : State) : Answer State := .next (unpack (mkWord 9#4 p) s)

/-- UNPACK.10: 6 slots of 10 bits (R130). -/
def execUnpack10 (p : Payload) (s : State) : Answer State := .next (unpack (mkWord 10#4 p) s)

/-- UNPACK.11: 5 slots of 12 bits (R131). -/
def execUnpack11 (p : Payload) (s : State) : Answer State := .next (unpack (mkWord 11#4 p) s)

/-- UNPACK.12: 4 slots of 15 bits (R132). -/
def execUnpack12 (p : Payload) (s : State) : Answer State := .next (unpack (mkWord 12#4 p) s)

/-- UNPACK.13: 3 slots of 20 bits (R133). -/
def execUnpack13 (p : Payload) (s : State) : Answer State := .next (unpack (mkWord 13#4 p) s)

/-- UNPACK.14: 2 slots of 30 bits (R134). -/
def execUnpack14 (p : Payload) (s : State) : Answer State := .next (unpack (mkWord 14#4 p) s)

/-- UNPACK.15: 1 slot of 60 bits (R135). -/
def execUnpack15 (p : Payload) (s : State) : Answer State := .next (unpack (mkWord 15#4 p) s)

end Sys2Proof.Machine
end

