-- ==== Sys2Proof/Machine/Dispatch.lean ====
section
/-! DEFINITION. The dispatch of every instruction to its meaning. -/

namespace Sys2Proof.Machine

def exec (i : Instr) (s : State) : Host.Outcome State Fault Refusal :=
  match i with
  | .encode => Sys2Proof.Machine.execEncode s
  | .decode => Sys2Proof.Machine.execDecode s
  | .pack0 => Sys2Proof.Machine.execPack0 s
  | .pack1 => Sys2Proof.Machine.execPack1 s
  | .pack2 => Sys2Proof.Machine.execPack2 s
  | .pack3 => Sys2Proof.Machine.execPack3 s
  | .pack4 => Sys2Proof.Machine.execPack4 s
  | .pack5 => Sys2Proof.Machine.execPack5 s
  | .pack6 => Sys2Proof.Machine.execPack6 s
  | .pack7 => Sys2Proof.Machine.execPack7 s
  | .pack8 => Sys2Proof.Machine.execPack8 s
  | .pack9 => Sys2Proof.Machine.execPack9 s
  | .pack10 => Sys2Proof.Machine.execPack10 s
  | .pack11 => Sys2Proof.Machine.execPack11 s
  | .pack12 => Sys2Proof.Machine.execPack12 s
  | .pack13 => Sys2Proof.Machine.execPack13 s
  | .pack14 => Sys2Proof.Machine.execPack14 s
  | .pack15 => Sys2Proof.Machine.execPack15 s
  | .unpack0 p => Sys2Proof.Machine.execUnpack0 p s
  | .unpack1 p => Sys2Proof.Machine.execUnpack1 p s
  | .unpack2 p => Sys2Proof.Machine.execUnpack2 p s
  | .unpack3 p => Sys2Proof.Machine.execUnpack3 p s
  | .unpack4 p => Sys2Proof.Machine.execUnpack4 p s
  | .unpack5 p => Sys2Proof.Machine.execUnpack5 p s
  | .unpack6 p => Sys2Proof.Machine.execUnpack6 p s
  | .unpack7 p => Sys2Proof.Machine.execUnpack7 p s
  | .unpack8 p => Sys2Proof.Machine.execUnpack8 p s
  | .unpack9 p => Sys2Proof.Machine.execUnpack9 p s
  | .unpack10 p => Sys2Proof.Machine.execUnpack10 p s
  | .unpack11 p => Sys2Proof.Machine.execUnpack11 p s
  | .unpack12 p => Sys2Proof.Machine.execUnpack12 p s
  | .unpack13 p => Sys2Proof.Machine.execUnpack13 p s
  | .unpack14 p => Sys2Proof.Machine.execUnpack14 p s
  | .unpack15 p => Sys2Proof.Machine.execUnpack15 p s

end Sys2Proof.Machine
end

