-- ==== Sys2Proof/Machine/Fetch.lean ====
section
/-! DEFINITION. How a step finds its command. The engine fetches no instructions (10_state.md R26, 20_memory.md R42): the
command is the one the host selected in OP (30_encoding.md R62). -/

namespace Sys2Proof.Machine

/-- The command that an issue starts now: OP is sampled (R182). Refused while a command is in progress (R182, U10) and while
OP is unwritten (R27). -/
def fetch (s : State) : Answer Instr :=
  match s.phase with
  | .busy _ => .refused .commandInProgress
  | .idle =>
    match s.op with
    | .unwritten => .refused (.operandUnwritten .op)
    | .written op => .next (decodeCommand op)

/-- A register's contents, or 0 written where it is unwritten. -/
def orZero {w : Nat} : Reg w → Reg w
  | .unwritten => .written 0#w
  | .written v => .written v

/-- The state in which the host has placed an instruction of the opcode table for the very next issue (R181; log entry 3). A
command code (one byte or less) goes to OP, and the register its operands are in, where still unwritten, takes a word of
zeros; 64 bits are a word for DECODE: OP is 1 and WIN is that word. -/
def placeTableWord (nbits w : Nat) (s : State) : State :=
  if nbits = 64 then { s with op := .written 1#1, win := .written (BitVec.ofNat 64 w), phase := .idle }
  else if BitVec.ofNat 1 w = 0#1 then { s with op := .written 0#1, count := orZero s.count, phase := .idle }
  else { s with op := .written 1#1, win := orZero s.win, phase := .idle }

end Sys2Proof.Machine
end

