-- ==== Sys2Proof/Machine/Step.lean ====
section
/-! DEFINITION. One step: the host issues the command selected in OP and it runs to completion (00_scope.md R8,
70_reset_and_hazards.md R182; 92_eei_decisions.md D1). -/

namespace Sys2Proof.Machine

/-- One command, from issue to completion, as one atomic step (R8, R182). -/
def step (s : State) : Host.Outcome State Fault Refusal := Answer.andThen (fetch s) (fun i => exec i s)

/-- `s` with an instruction of the opcode table placed for the next step. -/
def State.withFetchWord (s : State) (nbits w : Nat) : State := placeTableWord nbits w s

end Sys2Proof.Machine
end

