-- ==== Sys2Proof/Machine/Lifecycle.lean ====
section
/-! DEFINITION. The life of a command taken apart: issue, completion, and reset at any time (70_reset_and_hazards.md R180 to
R182). A step of the machine is an issue and its completion in one; nothing in between is visible to the host but that its
accesses are refused (Machine/HostPort.lean). -/

namespace Sys2Proof.Machine

/-- Why the operands of the command with code `op` are not there, if they are not: its operand register is unwritten (R27), or
VIN holds fewer than COUNT values (U5). -/
def operandCheck (op : BitVec 1) (s : State) : Option Refusal :=
  if op = 0#1 then
    match encodeInput s with
    | .error r => some r
    | .ok _ => none
  else
    match s.win with
    | .unwritten => some (.operandUnwritten .win)
    | .written _ => none

/-- Issue: OP is sampled and every result register becomes unwritten (R22, R182). DESIGN CHOICE (log entry 15): a command whose
operands are not there is refused in this half, at issue. R27 and U5 say only to refuse it, not in which half; R181 has all
operand writes precede the issue. -/
def issue (s : State) : Answer State :=
  match s.phase with
  | .busy _ => .refused .commandInProgress
  | .idle =>
    match s.op with
    | .unwritten => .refused (.operandUnwritten .op)
    | .written op =>
      match operandCheck op s with
      | some r => .refused r
      | none => .next { clearResults s with phase := .busy op }

/-- Completion: the effects of the sampled command appear and the engine is idle again (R182). -/
def complete (s : State) : Answer State :=
  match s.phase with
  | .idle => .refused .noCommandInProgress
  | .busy op => Answer.andThen (exec (decodeCommand op) s) (fun t => .next { t with phase := .idle })

/-- VOUT with every entry at a free value: what is left after the `n`-th reset that abandoned a DECODE (R180, U9). DESIGN CHOICE
(log entry 6): the value depends on `n` and the index alone, so two engines, or two runs, that have abandoned equally many
DECODEs hold equal values here, which U9 does not say; no statement rests on it. -/
def freeVout (n : Nat) : Memory :=
  (List.range Config.voutCapacity).map (fun i => (i, Config.freeVoutEntry n i))

/-- Reset of a running engine (R27, R180): every operand and result register becomes unwritten and the engine idle. VIN and
VOUT are not touched, except that a DECODE in progress is abandoned with VOUT[0 .. 239] unspecified: the free values of
`freeVout`, equal for two engines whose `freeCount` is equal (DESIGN CHOICE, log entry 6). -/
def resetEngine (s : State) : State :=
  match s.phase with
  | .busy 1#1 => { State.reset with vin := s.vin, vout := freeVout s.freeCount, freeCount := s.freeCount + 1 }
  | _ => { State.reset with vin := s.vin, vout := s.vout, freeCount := s.freeCount }

end Sys2Proof.Machine
end

