-- ==== Sys2Proof/Machine/HostPort.lean ====
section
/-! DEFINITION. The host's side of the interface (00_scope.md R8; access table 10_state.md R21): what the host may write and
read, when, and what it is told otherwise. -/

namespace Sys2Proof.Machine

/-- What the host can do to the engine and its memories. -/
inductive HostAction where
  /-- Write OP (R14). -/
  | writeOp (v : BitVec 1)
  /-- Write COUNT (R15). -/
  | writeCount (v : BitVec 64)
  /-- Write WIN (R16). -/
  | writeWin (v : Word)
  /-- Write one entry of VIN, whose index is 64 bits wide (R23, R30). -/
  | writeVin (i : BitVec 64) (v : Word)
  /-- Write one entry of VOUT, whose index is 8 bits wide (R24, R30). -/
  | writeVout (i : BitVec 8) (v : Word)
  /-- Issue the selected command (R182). -/
  | issue
  /-- Reset the engine (R180). -/
  | reset
  deriving DecidableEq, Repr

/-- Is a command in progress? -/
def isBusy (s : State) : Bool :=
  match s.phase with
  | .idle => false
  | .busy _ => true

/-- Is entry `i` of VIN one of VIN[0 .. COUNT-1], which must stay as they are during a command (R39)? -/
def presented (s : State) (i : Nat) : Bool :=
  match s.count with
  | .unwritten => false
  | .written c => decide (i < c.toNat)

/-- A host action: OP, COUNT, WIN and VIN[0 .. COUNT-1] may not be written and VOUT may not be touched during a command (R39,
R40, R191; U6: refuse); VOUT has no entry at 240 and above (R24). -/
def hostAct (a : HostAction) (s : State) : Answer State :=
  match a with
  | .writeOp v => if isBusy s then .refused .operandChanged else .next { s with op := .written v }
  | .writeCount v => if isBusy s then .refused .operandChanged else .next { s with count := .written v }
  | .writeWin v => if isBusy s then .refused .operandChanged else .next { s with win := .written v }
  | .writeVin i v =>
    if isBusy s && presented s i.toNat then .refused .operandChanged
    else .next { s with vin := Memory.write s.vin i.toNat v }
  | .writeVout i v =>
    if isBusy s then .refused .voutTouched
    else if Config.voutCapacity ≤ i.toNat then .fault (.voutIndex i.toNat)
    else .next { s with vout := Memory.write s.vout i.toNat v }
  | .issue => Sys2Proof.Machine.issue s
  | .reset => .next (resetEngine s)

/-- A host read of a result register: its value where it is written, a fault where it is not (R22, U7). -/
def readResult {w : Nat} (name : ResultReg) (r : Reg w) : Answer (BitVec w) :=
  match r with
  | .unwritten => .fault (.resultUnwritten name)
  | .written v => .next v

/-- The host reads WOUT (R17). -/
def readWout (s : State) : Answer Word := readResult .wout s.wout

/-- The host reads CONSUMED (R18). -/
def readConsumed (s : State) : Answer (BitVec 8) := readResult .consumed s.consumed

/-- The host reads PRODUCED (R19). -/
def readProduced (s : State) : Answer (BitVec 8) := readResult .produced s.produced

/-- The host reads STATUS (R20). -/
def readStatus (s : State) : Answer (BitVec 1) := readResult .status s.status

/-- The host reads one entry of VOUT: not during a command (R40, R191), not past entry 239 (R24), and with no value where the
contents are unspecified (R27; log entry 2). -/
def readVout (i : BitVec 8) (s : State) : Answer Word :=
  if isBusy s then .refused .voutTouched
  else if Config.voutCapacity ≤ i.toNat then .fault (.voutIndex i.toNat)
  else
    match Memory.read s.vout i.toNat with
    | none => .fault (.voutUnspecified i.toNat)
    | some v => .next v

/-- The operands of a command put in their registers and in VIN, as R64 says it: `OP <- 0`, `COUNT <- count`, `VIN[j] <- vj`, or
`OP <- 1`, `WIN <- w`. -/
def placeCommand (c : Command) (s : State) : State :=
  match c with
  | .encode count values => { s with op := .written 0#1, count := .written count, vin := Memory.ofList 0 values }
  | .decode word => { s with op := .written 1#1, win := .written word }

end Sys2Proof.Machine
end

