-- ==== Sys2Proof/Machine/Engines.lean ====
section
/-! DEFINITION. Several engines side by side (60_exceptions.md R172; 20_memory.md R41). Each has its own registers and is given
its own VIN and VOUT, so the memories of two engines are disjoint by construction; they "share nothing but the constant
table" (R172; log entry 10). Any number of them may have a command in progress at once. -/

namespace Sys2Proof.Machine

/-- What can happen to one engine: a whole command, issue to completion (R8); the completion of a command issued before (R182);
or an action of its host, the issue of a command and a reset among them. -/
inductive EngineAction where
  | command
  | complete
  | host (a : HostAction)
  deriving DecidableEq, Repr

/-- One engine on its own. -/
def engineAct (x : EngineAction) (s : State) : Answer State :=
  match x with
  | .command => step s
  | .complete => Sys2Proof.Machine.complete s
  | .host a => hostAct a s

/-- The same on engine `i` of several: the others take no part. -/
def actEngine {n : Nat} (i : Fin n) (x : EngineAction) (engines : Vector State n) : Answer (Vector State n) :=
  Answer.andThen (engineAct x engines[i]) (fun t => .next (engines.set i t))

/-- One of several engines runs a command (R172). -/
def stepEngine {n : Nat} (i : Fin n) (engines : Vector State n) : Answer (Vector State n) := actEngine i .command engines

/-- One of several engines completes the command it was issued; the others may be busy too (R172, R182). -/
def completeEngine {n : Nat} (i : Fin n) (engines : Vector State n) : Answer (Vector State n) := actEngine i .complete engines

/-- The host acts on one of several engines. -/
def hostActEngine {n : Nat} (i : Fin n) (a : HostAction) (engines : Vector State n) : Answer (Vector State n) :=
  actEngine i (.host a) engines

end Sys2Proof.Machine
end

