-- ==== Sys2Proof/Machine/Stream.lean ====
section
/-! DEFINITION. The host's loops over many commands, ENCODE_STREAM and DECODE_STREAM (30_encoding.md R65,
43_stream_and_laws.md R140, R141). The engine executes none of this: each turn of a loop is one step of it. -/

namespace Sys2Proof.Machine

/-- How ENCODE_STREAM ends (R140), with the engine's state at the end. -/
inductive StreamEnd where
  /-- Every value was encoded. -/
  | ok (words : List Word) (s : State)
  /-- An ENCODE reported OutOfRange at this position; these words were produced before it. -/
  | outOfRange (pos : Nat) (words : List Word) (s : State)
  /-- No run of R140: a step gave no result, the loop was given too little fuel (its progress is R143), or more values are left
  than COUNT can say. -/
  | stuck
  deriving DecidableEq, Repr

/-- The loop of R140 from position `pos`, with the words so far: `rest` is what is left of the sequence, presented whole to each
ENCODE. The host reads ERR before WOUT and CONSUMED (R187). `fuel` bounds the number of commands. DESIGN CHOICE (log entry 17):
with 2^64 values or more left, where `count = L - pos` is no value of the 64-bit COUNT (R15, D3) and R140 does not say what
the host then does, the loop issues nothing and is `stuck`. -/
def encodeLoop : (fuel : Nat) → State → (rest : List Word) → (pos : Nat) → (words : List Word) → StreamEnd
  | _, s, [], _, words => .ok words s
  | 0, _, _ :: _, _, _ => .stuck
  | fuel + 1, s, v :: vs, pos, words =>
    if 2 ^ 64 ≤ (v :: vs).length then .stuck
    else
      match step (placeCommand (.encode (BitVec.ofNat 64 (v :: vs).length) (v :: vs)) s) with
      | .next t =>
        match readStatus t with
        | .next e =>
          if errOf e then .outOfRange pos words t
          else
            match readWout t, readConsumed t with
            | .next w, .next n => encodeLoop fuel t ((v :: vs).drop n.toNat) (pos + n.toNat) (words ++ [w])
            | _, _ => .stuck
        | _ => .stuck
      | _ => .stuck

/-- ENCODE_STREAM of a sequence, on an engine in state `s` (R140). -/
def encodeStream (values : List Word) (s : State) : StreamEnd := encodeLoop values.length s values 0 []

/-- The values VOUT[0 .. PRODUCED-1] that the host copies out after a DECODE (R40, R141). -/
def decodedValues (s : State) : Option (List Word) :=
  match s.produced with
  | .unwritten => none
  | .written n => Memory.firstN s.vout n.toNat

/-- DECODE_STREAM of a sequence of words, on an engine in state `s`: the decoded values in order, and the state at the end
(R141). None where a step gives no result. -/
def decodeStream : List Word → State → Option (List Word × State)
  | [], s => some ([], s)
  | w :: ws, s =>
    match Answer.result? (step (placeCommand (.decode w) s)) with
    | none => none
    | some t =>
      match decodedValues t, decodeStream ws t with
      | some us, some (rest, last) => some (us ++ rest, last)
      | _, _ => none

end Sys2Proof.Machine
end

