-- ==== Sys2Proof/Safety.lean ====
section
/-! DEFINITION. The terms claims are made in: which states are legal, when a command is ready to run, what ENCODE is given,
and the forms in which the statements about PACK.k and UNPACK.k are written. -/

namespace Sys2Proof.Machine

/-- ENCODE is given these values: COUNT is their number, and VIN, in its canonical form, holds them from entry 0 on (R15,
R23). Nothing is asked of VIN at index COUNT and above. -/
def Inputs (s : State) (vs : List Word) : Prop :=
  s.count = .written (BitVec.ofNat 64 vs.length) ∧ vs.length < 2 ^ 64 ∧ Memory.wf s.vin ∧
    ∀ j < vs.length, Memory.read s.vin j = vs[j]?

/-- The host has done its part for the selected command, and none is in progress (R27, R181, R182). -/
def State.Ready (s : State) : Prop :=
  s.phase = .idle ∧
    ((s.op = .written 0#1 ∧ ∃ vs, Inputs s vs) ∨ (s.op = .written 1#1 ∧ ∃ w, s.win = .written w))

/-- A step is safe when it answers a next state: no fault and no refusal (R183: "Every command completes"). -/
def State.Safe (s : State) : Prop := ∃ t, step s = .next t

/-- No result register holds a value (R22). -/
def State.ResultsUnwritten (s : State) : Prop :=
  s.wout = .unwritten ∧ s.consumed = .unwritten ∧ s.produced = .unwritten ∧ s.status = .unwritten

/-- The result registers are as the completion of some command leaves them: all unwritten; or a canonical word with its slot
count, or 0 and 0; or OutOfRange with nothing beside it; or the slot count of a DECODE (R17 to R22, R59, R106, R136). -/
def State.ResultsLegal (s : State) : Prop :=
  s.ResultsUnwritten ∨
  (∃ (w : Word) (n : BitVec 8), s.wout = .written w ∧ s.consumed = .written n ∧ s.produced = .unwritten ∧
    s.status = .written 0#1 ∧
    ((w = 0#64 ∧ n = 0#8) ∨ (canonical w = true ∧ n.toNat = (lookup (tagOf w)).slotCount))) ∨
  (s.wout = .unwritten ∧ s.consumed = .unwritten ∧ s.produced = .unwritten ∧ s.status = .written 1#1) ∨
  (∃ (k : Tag) (n : BitVec 8), s.wout = .unwritten ∧ s.consumed = .unwritten ∧ s.produced = .written n ∧
    s.status = .written 0#1 ∧ n.toNat = (lookup k).slotCount)

/-- The invariant of the machine: both memories in canonical form and within their index ranges (R30), the result registers
legal, and all of them unwritten while a command is in progress (R22). -/
structure State.Inv (s : State) : Prop where
  vin_wf : Memory.wf s.vin
  vin_below : Memory.below (2 ^ 64) s.vin
  vout_wf : Memory.wf s.vout
  vout_below : Memory.below Config.voutCapacity s.vout
  results : s.ResultsLegal
  busy_unwritten : s.phase ≠ .idle → s.ResultsUnwritten

/-- Every one of the values is 1 (the all-ones rule, R83). -/
abbrev AllOnes (vs : List Word) : Prop := ∀ v ∈ vs, v = 1#64

/-- eligible(k) as R82 writes it; `vs.getD j 0` is VIN[j], for j below COUNT. -/
abbrev SpecEligible (k : Tag) (vs : List Word) : Prop :=
  (lookup k).slotCount ≤ vs.length ∧
    ((lookup k).bitWidth = 0 → ∀ j, j < vs.length → vs.getD j 0#64 = 1#64) ∧
    ((lookup k).bitWidth ≠ 0 → ∀ j, j < (lookup k).slotCount → (vs.getD j 0#64).toNat ≤ 2 ^ (lookup k).bitWidth - 1)

/-- The bitwise OR of `f 0, ..., f (n-1)`. -/
def orOver (n : Nat) (f : Nat → Word) : Word := ((List.range n).map f).foldl (· ||| ·) 0#64

/-- The state after an ENCODE that completes without error (R21, R86): everything but the four result registers is as it was. -/
def encodeDone (w : Word) (n : BitVec 8) (s : State) : State :=
  { s with wout := .written w, consumed := .written n, produced := .unwritten, status := .written 0#1 }

/-- The state after an ENCODE that raises OutOfRange (R162). -/
def encodeRaised (s : State) : State :=
  { s with wout := .unwritten, consumed := .unwritten, produced := .unwritten, status := .written 1#1 }

/-- PACK with tag bits `T`, `n` slots of `b` bits and largest value `m`, on the instruction `i`: given at least `n` values of
which the first `n` are at most `m`, it completes; WOUT is `T` OR'ed with value j shifted left by b*j for each slot j,
CONSUMED is `n`, ERR is 0, and nothing else changes (the form of R92 to R105). -/
def Packs (i : Instr) (T : Word) (n b m : Nat) : Prop :=
  ∀ (s : State) (vs : List Word), Inputs s vs → n ≤ vs.length → (∀ j, j < n → (vs.getD j 0#64).toNat ≤ m) →
    exec i s = .next { s with
      wout := .written (T ||| orOver n (fun j => (vs.getD j 0#64) <<< (b * j))),
      consumed := .written (BitVec.ofNat 8 n), status := .written 0#1 }

/-- UNPACK of the word with tag bits `T` over a payload, `n` slots of `b` bits with mask `m`: it always completes; VOUT[j] for
j < n is the word shifted right by b*j and masked, every other entry of VOUT reads as before, PRODUCED is `n`, ERR is 0, and
nothing else changes (the form of R122 to R135). -/
def Unpacks (i : Payload → Instr) (T : Word) (n b : Nat) (m : Word) : Prop :=
  ∀ (s : State) (p : Payload), ∃ t : State, exec (i p) s = .next t ∧
    t = { s with vout := t.vout, produced := .written (BitVec.ofNat 8 n), status := .written 0#1 } ∧
    ∀ j, Memory.read t.vout j =
      if j < n then some (((T ||| p.setWidth 64) >>> (b * j)) &&& m) else Memory.read s.vout j

/-- UNPACK of a degenerate word: `n` entries of VOUT become 1 whatever the payload (the form of R120, R121). -/
def UnpacksOnes (i : Payload → Instr) (n : Nat) : Prop :=
  ∀ (s : State) (p : Payload), ∃ t : State, exec (i p) s = .next t ∧
    t = { s with vout := t.vout, produced := .written (BitVec.ofNat 8 n), status := .written 0#1 } ∧
    ∀ j, Memory.read t.vout j = if j < n then some 1#64 else Memory.read s.vout j

/-- kmin(c), the least selector with no more slots than c values, as the table of R89 lists it (for c >= 1). -/
def kmin (c : Nat) : Nat :=
  if 240 ≤ c then 0 else if 120 ≤ c then 1 else if 60 ≤ c then 2 else if 30 ≤ c then 3 else if 20 ≤ c then 4
  else if 15 ≤ c then 5 else if 12 ≤ c then 6 else if 10 ≤ c then 7 else if 8 ≤ c then 8 else if 7 ≤ c then 9
  else if 6 ≤ c then 10 else if 5 ≤ c then 11 else if 4 ≤ c then 12 else if 3 ≤ c then 13 else if 2 ≤ c then 14 else 15

/-- The largest tag whose words write output slot `i`, as the table of R118 lists it (for i <= 239). -/
def lastTagOfSlot (i : Nat) : Nat :=
  if i = 0 then 15 else if i = 1 then 14 else if i = 2 then 13 else if i = 3 then 12 else if i = 4 then 11
  else if i = 5 then 10 else if i = 6 then 9 else if i = 7 then 8 else if i ≤ 9 then 7 else if i ≤ 11 then 6
  else if i ≤ 14 then 5 else if i ≤ 19 then 4 else if i ≤ 29 then 3 else if i ≤ 59 then 2 else if i ≤ 119 then 1 else 0

/-- The least selector k >= 2 that a value fits, as the ranges of R72 list it. -/
def leastFitTable (v : Nat) : Option Tag :=
  if v ≤ 1 then some 2 else if v ≤ 3 then some 3 else if v ≤ 7 then some 4 else if v ≤ 15 then some 5
  else if v ≤ 31 then some 6 else if v ≤ 63 then some 7 else if v ≤ 127 then some 8 else if v ≤ 255 then some 9
  else if v ≤ 1023 then some 10 else if v ≤ 4095 then some 11 else if v ≤ 32767 then some 12
  else if v ≤ 1048575 then some 13 else if v ≤ 1073741823 then some 14 else if v ≤ 1152921504606846975 then some 15
  else none

end Sys2Proof.Machine
end

