-- ==== Sys2Proof/Certificates/Slice0/Obligations.lean ====
section
/-! DEFINITION. The statements about the engine, each from the numbered rules of spec/. -/

open Sys2Proof Sys2Proof.Machine

/-! ### The selector table -/

/-- R11, R71: index, slots, bits, payload bits used, unused payload bits and largest value of each selector, in order; and
ORDERED lists the slot counts in that same order. The index of rows 3 to 15 is the spec's own inference (R12, D21; log entry 7). -/
def Obligations.SelectorTableContents : Prop :=
  scanOrder.map (fun k => (k.toNat, (lookup k).slotCount, (lookup k).bitWidth, (lookup k).slotCount * (lookup k).bitWidth,
      60 - (lookup k).slotCount * (lookup k).bitWidth, mask (lookup k).bitWidth)) =
    [(0, 240, 0, 0, 60, 0), (1, 120, 0, 0, 60, 0), (2, 60, 1, 60, 0, 0x1), (3, 30, 2, 60, 0, 0x3), (4, 20, 3, 60, 0, 0x7),
     (5, 15, 4, 60, 0, 0xF), (6, 12, 5, 60, 0, 0x1F), (7, 10, 6, 60, 0, 0x3F), (8, 8, 7, 56, 4, 0x7F),
     (9, 7, 8, 56, 4, 0xFF), (10, 6, 10, 60, 0, 0x3FF), (11, 5, 12, 60, 0, 0xFFF), (12, 4, 15, 60, 0, 0x7FFF),
     (13, 3, 20, 60, 0, 0xFFFFF), (14, 2, 30, 60, 0, 0x3FFFFFFF), (15, 1, 60, 60, 0, 0x0FFFFFFFFFFFFFFF)] ∧
  ordered.map Descriptor.slotCount = [240, 120, 60, 30, 20, 15, 12, 10, 8, 7, 6, 5, 4, 3, 2, 1]

/-- R13 (a) to (e): the invariants of SELTAB. -/
def Obligations.SelectorTableInvariants : Prop :=
  (∀ k : Tag, (lookup k).slotCount * (lookup k).bitWidth ≤ 60) ∧
  (∀ k k' : Tag, k < k' → (lookup k').slotCount < (lookup k).slotCount) ∧
  ((lookup 0#4).bitWidth = 0 ∧ (lookup 1#4).bitWidth = 0) ∧
  (∀ k k' : Tag, 1#4 ≤ k → k < k' → (lookup k).bitWidth < (lookup k').bitWidth) ∧
  (∀ k : Tag, 2#4 ≤ k → (lookup k).slotCount = 60 / (lookup k).bitWidth) ∧
  (∀ w w' : Word, tagOf w = tagOf w' → (unpackValues w).length = (unpackValues w').length ∧
    lookup (tagOf w) = lookup (tagOf w'))

/-- R72: the fit test of every selector, its growth with the selector, the table of the least selector each value fits, and the
boundary value of each width. -/
def Obligations.FitTestAndLeastSelector : Prop :=
  ∀ v : Word,
    (∀ k : Tag, 2#4 ≤ k → (fits k v = true ↔ v.toNat ≤ 2 ^ (lookup k).bitWidth - 1)) ∧
    (∀ k : Tag, k < 2#4 → (fits k v = true ↔ v = 1#64)) ∧
    (∀ k k' : Tag, 2#4 ≤ k → k < k' → fits k v = true → fits k' v = true) ∧
    leastFit v = leastFitTable v.toNat ∧
    (∀ k : Tag, 2#4 ≤ k → (v.toNat = 2 ^ (lookup k).bitWidth - 1 → fits k v = true) ∧
      (v.toNat = 2 ^ (lookup k).bitWidth → fits k v = false))

/-! ### Encodings -/

/-- R51: a word is its tag, bits 63..60, over its payload, bits 59..0. -/
def Obligations.WordIsTagOverPayload : Prop :=
  (∀ w : Word, (tagOf w).toNat = (w >>> 60).toNat ∧ (payloadOf w).toNat = (w &&& 0x0FFFFFFFFFFFFFFF#64).toNat ∧
    mkWord (tagOf w) (payloadOf w) = w) ∧
  (∀ (k : Tag) (p : Payload), tagOf (mkWord k p) = k ∧ payloadOf (mkWord k p) = p)

/-- Decoding what the encoder writes gives the instruction back, for all 34 constructors and every payload. -/
def Obligations.DecodeOfEncodeIsIdentity : Prop :=
  ∀ i : Instr, i.wellFormed = true → decodeInstr (encodeInstr i) = i

/-- Encoding what the decoder reads gives the word back: DECODE reads each of the 2^64 words as one UNPACK.k and drops no bit of
it; both command codes likewise. That a 64-bit word of the opcode table reads as UNPACK.k, although PACK.k has the same mask and
match (R63), is the model's reading (log entry 4). -/
def Obligations.EncodeOfDecodeIsIdentity : Prop :=
  (∀ w : Word, encodeInstr (decodeInputWord w) = .inputWord w ∧ decodeTableWord 64 w.toNat = some (decodeInputWord w)) ∧
  (∀ op : BitVec 1, encodeInstr (decodeCommand op) = .command op)

/-- A few encodings written out: the command codes (R62) and words of formats S0, S2, S8, S14 (R53). That a 64-bit table word decodes to
UNPACK.k and not to the PACK.k with the same bits (R63) is the model's reading (log entry 4). -/
def Obligations.WrittenOutEncodingsDecode : Prop :=
  decodeTableWord 8 0 = some .encode ∧ decodeTableWord 8 1 = some .decode ∧
  decodeTableWord 64 0x0000000000000001 = some (.unpack0 0x000000000000001#60) ∧
  decodeTableWord 64 0x2800000000000000 = some (.unpack2 0x800000000000000#60) ∧
  decodeTableWord 64 0x80101C305080C101 = some (.unpack8 0x0101C305080C101#60) ∧
  decodeTableWord 64 0xE000000080000001 = some (.unpack14 0x000000080000001#60)

/-- Raw bits: a command code is 0 or 1 and "There is no other value" (R14), every 64-bit word decodes (R58), and a number too
wide for a word does not (R50). -/
def Obligations.RawBitsDecodeOrAreRejected : Prop :=
  (∀ w : Nat, decodeTableWord 8 w = if w = 0 then some .encode else if w = 1 then some .decode else none) ∧
  (∀ w : Nat, (∃ i, decodeTableWord 64 w = some i) ↔ w < 2 ^ 64)

/-! ### A step -/

/-- A step on an idle engine is the command that OP selects (R62, R182); with OP = 1 it is the UNPACK.k decoded from the word in WIN,
run after the issue has cleared the result registers (R63, R22). -/
def Obligations.StepRunsTheDecodedInstruction : Prop :=
  (∀ (s : State) (op : BitVec 1), s.phase = .idle → s.op = .written op → step s = exec (decodeCommand op) s) ∧
  (∀ (s : State) (w : Word), s.phase = .idle → s.op = .written 1#1 → s.win = .written w →
    step s = exec (decodeInputWord w) (clearResults s))

/-- A step completes exactly when the host has done its part: no command in progress, OP written, and the operands of the
command there (R27, R181, R182, R183). -/
def Obligations.StepCompletesExactlyWhenReady : Prop :=
  ∀ s : State, Memory.wf s.vin → (s.Safe ↔ s.Ready)

/-- Where a step is refused, and by what name: a command in progress (R182), an operand register unwritten (R27), VIN short of
COUNT values (R23, U5). -/
def Obligations.StepRefusesUnpreparedCommand : Prop :=
  ∀ s : State,
    (s.phase ≠ .idle → step s = .refused .commandInProgress) ∧
    (s.phase = .idle → s.op = .unwritten → step s = .refused (.operandUnwritten .op)) ∧
    (s.phase = .idle → s.op = .written 0#1 → s.count = .unwritten → step s = .refused (.operandUnwritten .count)) ∧
    (s.phase = .idle → s.op = .written 1#1 → s.win = .unwritten → step s = .refused (.operandUnwritten .win)) ∧
    (∀ (c : BitVec 64) (j : Nat), s.phase = .idle → s.op = .written 0#1 → s.count = .written c → j < c.toNat →
      Memory.read s.vin j = none → step s = .refused .vinShort)

/-- What a step leaves alone: operand registers, VIN, the phase; ENCODE leaves VOUT and leaves PRODUCED unwritten, DECODE leaves
WOUT and CONSUMED unwritten and every VOUT entry at or above the slot count (R21, R87, R114). -/
def Obligations.StepFrame : Prop :=
  ∀ s t : State, step s = .next t →
    t = { s with wout := t.wout, consumed := t.consumed, produced := t.produced, status := t.status, vout := t.vout } ∧
    (s.op = .written 0#1 → t.vout = s.vout ∧ t.produced = .unwritten) ∧
    (∀ w, s.op = .written 1#1 → s.win = .written w → t.wout = .unwritten ∧ t.consumed = .unwritten ∧
      ∀ i, (lookup (tagOf w)).slotCount ≤ i → Memory.read t.vout i = Memory.read s.vout i)

/-! ### ENCODE -/

/-- R82: what eligibility is, and that values at index n_k and above play no part in it when b_k > 0. -/
def Obligations.EligibilityRule : Prop :=
  ∀ (k : Tag) (vs : List Word),
    (eligible k vs = true ↔ SpecEligible k vs) ∧
    (∀ us : List Word, (lookup k).bitWidth ≠ 0 → (lookup k).slotCount ≤ vs.length → (lookup k).slotCount ≤ us.length →
      vs.take (lookup k).slotCount = us.take (lookup k).slotCount → eligible k us = eligible k vs)

/-- R147: ENCODE with COUNT = 0, whatever VIN holds. -/
def Obligations.EmptyEncodeResult : Prop :=
  ∀ s : State, s.count = .written 0#64 → exec .encode s = .next (encodeDone 0#64 0#8 s)

/-- R88, the whole of ENCODE: the empty input; the first eligible selector k, whose n_k values are OR'ed into the word at b_k bits
each; no eligible selector. In each case everything but the result registers is as before. -/
def Obligations.EncodeWhole : Prop :=
  ∀ (s : State) (vs : List Word), Inputs s vs →
    (vs = [] → exec .encode s = .next (encodeDone 0#64 0#8 s)) ∧
    (∀ k : Tag, vs ≠ [] → SpecEligible k vs → (∀ k' : Tag, k' < k → ¬ SpecEligible k' vs) →
      exec .encode s = .next (encodeDone
        (tagBits k ||| (if (lookup k).bitWidth = 0 then 0#64
          else orOver (lookup k).slotCount (fun j => (vs.getD j 0#64) <<< (j * (lookup k).bitWidth))))
        (BitVec.ofNat 8 (lookup k).slotCount) s)) ∧
    (vs ≠ [] → (∀ k : Tag, ¬ SpecEligible k vs) → exec .encode s = .next (encodeRaised s))

/-- R85: selector 15 is eligible exactly when VIN[0] <= 2^60 - 1; no selector is eligible exactly when VIN[0] >= 2^60, and then ENCODE
raises OutOfRange; a value >= 2^60 at an index j makes every selector with more than j slots ineligible, and for j >= 1 only
keeps the selector chosen to at most j slots. -/
def Obligations.NoEligibleSelectorRaises : Prop :=
  ∀ (v : Word) (vs : List Word),
    (SpecEligible 15#4 (v :: vs) ↔ v.toNat ≤ 2 ^ 60 - 1) ∧
    ((∀ k : Tag, ¬ SpecEligible k (v :: vs)) ↔ 2 ^ 60 ≤ v.toNat) ∧
    (∀ (k : Tag) (j : Nat) (u : Word), (v :: vs)[j]? = some u → 2 ^ 60 ≤ u.toNat → j < (lookup k).slotCount →
      ¬ SpecEligible k (v :: vs)) ∧
    (∀ s : State, Inputs s (v :: vs) → 2 ^ 60 ≤ v.toNat → exec .encode s = .next (encodeRaised s)) ∧
    (∀ (s : State) (j : Nat) (u : Word), Inputs s (v :: vs) → v.toNat < 2 ^ 60 → (v :: vs)[j]? = some u → 2 ^ 60 ≤ u.toNat →
      ∃ w n, exec .encode s = .next (encodeDone w n s) ∧ 1 ≤ n.toNat ∧ n.toNat ≤ j)

/-- R160, R161: ENCODE raises OutOfRange exactly when COUNT > 0 and no selector is eligible, which is exactly when COUNT > 0 and
VIN[0] >= 2^60, with ERR = 1, and writes ERR = 0 otherwise; no other instruction raises it. -/
def Obligations.OutOfRangeRaisedExactlyWhen : Prop :=
  (∀ (s t : State) (vs : List Word), Inputs s vs → exec .encode s = .next t →
    (t.status = .written 1#1 ↔ vs ≠ [] ∧ ∀ k : Tag, ¬ SpecEligible k vs) ∧
    (t.status = .written 1#1 ↔ ∃ v rest, vs = v :: rest ∧ 2 ^ 60 ≤ v.toNat) ∧
    (t.status = .written 1#1 ∨ t.status = .written 0#1)) ∧
  (∀ (i : Instr) (s t : State), i ≠ .encode → exec i s = .next t → t.status = .written 0#1)

/-- R106: the eighteen ways an ENCODE can end, with the three results; a word's tag is the selector chosen, and the command is
then that PACK.k run after the issue has cleared the result registers. -/
def Obligations.EncodeEndsInOneOfEighteenWays : Prop :=
  ∀ (s : State) (vs : List Word), Inputs s vs → ∃ t : State, exec .encode s = .next t ∧
    ((vs = [] ∧ t.wout = .written 0#64 ∧ t.consumed = .written 0#8 ∧ t.status = .written 0#1) ∨
     (∃ (k : Tag) (w : Word), vs ≠ [] ∧ select vs = some k ∧ t.wout = .written w ∧ tagOf w = k ∧
        t.consumed = .written (BitVec.ofNat 8 (lookup k).slotCount) ∧ t.status = .written 0#1 ∧
        exec .encode s = exec (decodeOutputWord w) (clearResults s)) ∨
     (vs ≠ [] ∧ select vs = none ∧ t.wout = .unwritten ∧ t.consumed = .unwritten ∧ t.status = .written 1#1))

/-- R144: the selector of a word ENCODE returns is eligible, no selector before it is, and so it has the most slots of all eligible
ones. -/
def Obligations.SelectorMaximality : Prop :=
  ∀ (s t : State) (vs : List Word) (w : Word), Inputs s vs → vs ≠ [] → exec .encode s = .next t → t.wout = .written w →
    SpecEligible (tagOf w) vs ∧ (∀ k' : Tag, k' < tagOf w → ¬ SpecEligible k' vs) ∧
    (∀ k' : Tag, SpecEligible k' vs → (lookup k').slotCount ≤ (lookup (tagOf w)).slotCount)

/-- R89 (a) to (f): facts about the selection. -/
def Obligations.SelectionFacts : Prop :=
  (∀ (vs : List Word) (k k' : Tag), vs ≠ [] → eligible k vs = true → k < k' → eligible k' vs = true) ∧
  (∀ (vs : List Word) (k : Tag), select vs = some k → 1 ≤ (lookup k).slotCount ∧ (lookup k).slotCount ≤ vs.length) ∧
  (∀ (vs : List Word) (k : Tag), select vs = some k → kmin vs.length ≤ k.toNat) ∧
  (∀ c : Nat, 1 ≤ c → (∃ k : Tag, k.toNat = kmin c ∧ (lookup k).slotCount ≤ c ∧
    ∀ k' : Tag, (lookup k').slotCount ≤ c → k ≤ k')) ∧
  (∀ vs : List Word, (select vs = some 0#4 ↔ 240 ≤ vs.length ∧ AllOnes vs) ∧
    (select vs = some 1#4 ↔ 120 ≤ vs.length ∧ vs.length ≤ 239 ∧ AllOnes vs)) ∧
  (∀ (vs : List Word) (k : Tag), 60 ≤ vs.length → ¬ AllOnes vs → select vs = some k →
    2#4 ≤ k ∧ (lookup k).slotCount ≤ 60) ∧
  (∃ (us : List Word) (v : Word) (k k' : Tag), select us = some k ∧ select (us ++ [v]) = some k' ∧
    packWord k us ≠ packWord k' (us ++ [v]))

/-- R145, for the commands that select (COUNT > 0: an empty ENCODE returns the word 0 without selecting, R81): a word with tag 0 or
1 comes from values that are all 1, at least 240 or 120 to 239 of them, and such values always give one. -/
def Obligations.DegenerateSelectorsNeedAllOnes : Prop :=
  ∀ (s : State) (vs : List Word), Inputs s vs → vs ≠ [] →
    (∀ (t : State) (w : Word), exec .encode s = .next t → t.wout = .written w →
      (tagOf w = 0#4 → AllOnes vs ∧ 240 ≤ vs.length) ∧
      (tagOf w = 1#4 → AllOnes vs ∧ 120 ≤ vs.length ∧ vs.length ≤ 239)) ∧
    (240 ≤ vs.length → AllOnes vs → exec .encode s = .next (encodeDone 0x0000000000000000#64 240#8 s)) ∧
    (120 ≤ vs.length → vs.length ≤ 239 → AllOnes vs → exec .encode s = .next (encodeDone 0x1000000000000000#64 120#8 s))

/-- R83, its two consequences: 240 ones before a 2 choose selector 2; 300 ones choose selector 0, and the 60 left selector 2. -/
def Obligations.AllOnesRuleLooksAtWholeInput : Prop :=
  select (List.replicate 240 1#64 ++ [2#64]) = some 2#4 ∧ (lookup 2#4).slotCount = 60 ∧
  select (List.replicate 300 1#64) = some 0#4 ∧ (lookup 0#4).slotCount = 240 ∧
  select (List.replicate 60 1#64) = some 2#4

/-- R146: n_k values at the largest value of selector k >= 2 give tag k with every field bit 1; raising any one of them to 2^b_k gives
a greater tag, or OutOfRange for k = 15. -/
def Obligations.BoundaryBitWidths : Prop :=
  ∀ (k : Tag) (s : State), 2#4 ≤ k →
    (Inputs s (List.replicate (lookup k).slotCount (BitVec.ofNat 64 (2 ^ (lookup k).bitWidth - 1))) →
      exec .encode s = .next (encodeDone
        (mkWord k (BitVec.ofNat 60 (2 ^ ((lookup k).slotCount * (lookup k).bitWidth) - 1)))
        (BitVec.ofNat 8 (lookup k).slotCount) s)) ∧
    (∀ i, i < (lookup k).slotCount →
      Inputs s ((List.replicate (lookup k).slotCount (BitVec.ofNat 64 (2 ^ (lookup k).bitWidth - 1))).set i
        (BitVec.ofNat 64 (2 ^ (lookup k).bitWidth))) →
      (k = 15#4 → exec .encode s = .next (encodeRaised s)) ∧
      (k ≠ 15#4 → ∃ w n, exec .encode s = .next (encodeDone w n s) ∧ k < tagOf w))

/-- R57, R61 (d): the word of an eligible selector, as a number, is the tag times 2^60 plus each value times 2^(i*b): no field spills
into another or into the tag. -/
def Obligations.PackedWordIsSumOfFields : Prop :=
  ∀ (k : Tag) (vs : List Word), eligible k vs = true → (lookup k).bitWidth ≠ 0 →
    (packWord k vs).toNat = k.toNat * 2 ^ 60 +
      ((List.range (lookup k).slotCount).map (fun i => (vs.getD i 0#64).toNat * 2 ^ (i * (lookup k).bitWidth))).sum

/-- R35 (b), (c), (d): the result depends on the first min(c, 60) values and, for c >= 120, on whether all c values are 1; entries of VIN
at index c and above play no part. -/
def Obligations.EntriesOfVinThatMatter : Prop :=
  (∀ vs us : List Word, vs.length = us.length → vs.take 60 = us.take 60 → (120 ≤ vs.length → (AllOnes vs ↔ AllOnes us)) →
    select vs = select us ∧ ∀ k, select vs = some k → packWord k vs = packWord k us) ∧
  (∀ (s t : State) (vs : List Word) (j : Nat) (v : Word), Inputs s vs → vs.length ≤ j → exec .encode s = .next t →
    exec .encode { s with vin := Memory.write s.vin j v } = .next { t with vin := Memory.write s.vin j v })

/-! ### DECODE -/

/-- R112: what a DECODE of a word writes, entry by entry; and R114: what it leaves alone. That every other entry of VOUT reads as before
is the spec's own reading, as R114 says (D8; log entry 13). -/
def Obligations.DecodeWritesItsSlots : Prop :=
  ∀ (s : State) (w : Word), s.win = .written w → ∃ t : State, exec .decode s = .next t ∧
    t = { s with wout := .unwritten, consumed := .unwritten, vout := t.vout,
                 produced := .written (BitVec.ofNat 8 (lookup (tagOf w)).slotCount), status := .written 0#1 } ∧
    ∀ i, Memory.read t.vout i =
      if i < (lookup (tagOf w)).slotCount then
        some (if (lookup (tagOf w)).bitWidth = 0 then 1#64
          else (w >>> (i * (lookup (tagOf w)).bitWidth)) &&& ((1#64 <<< (lookup (tagOf w)).bitWidth) - 1#64))
      else Memory.read s.vout i

/-- R136, R115: a DECODE always completes, as the UNPACK.k of its word's tag, with (PRODUCED, ERR) = (n_k, 0), n_k at least 1, and n_k
values in VOUT. -/
def Obligations.DecodeEndsInOneOfSixteenWays : Prop :=
  ∀ (s : State) (w : Word), s.win = .written w → ∃ (t : State) (p : Payload) (n : BitVec 8),
    exec .decode s = .next t ∧ exec .decode s = exec (decodeInputWord w) (clearResults s) ∧
    [Instr.unpack0 p, .unpack1 p, .unpack2 p, .unpack3 p, .unpack4 p, .unpack5 p, .unpack6 p, .unpack7 p, .unpack8 p, .unpack9 p,
      .unpack10 p, .unpack11 p, .unpack12 p, .unpack13 p, .unpack14 p, .unpack15 p][(tagOf w).toNat]? =
        some (decodeInputWord w) ∧
    t.produced = .written n ∧ n.toNat = (lookup (tagOf w)).slotCount ∧ 1 ≤ n.toNat ∧ t.status = .written 0#1 ∧
    ∀ i, i < n.toNat → ∃ v, Memory.read t.vout i = some v

/-- R113: every value written is a b_k-bit field or 1, is at most 2^60 - 1, and depends on no payload bit at or above n_k * b_k. -/
def Obligations.DecodedValuesInRange : Prop :=
  (∀ (s t : State) (w : Word) (i : Nat), s.win = .written w → exec .decode s = .next t → i < (lookup (tagOf w)).slotCount →
    ∃ v, Memory.read t.vout i = some v ∧ v.toNat ≤ 2 ^ 60 - 1 ∧
      ((lookup (tagOf w)).bitWidth = 0 → v = 1#64) ∧
      ((lookup (tagOf w)).bitWidth ≠ 0 → v.toNat ≤ 2 ^ (lookup (tagOf w)).bitWidth - 1)) ∧
  (∀ w w' : Word, tagOf w = tagOf w' →
    (payloadOf w).toNat % 2 ^ ((lookup (tagOf w)).slotCount * (lookup (tagOf w)).bitWidth) =
      (payloadOf w').toNat % 2 ^ ((lookup (tagOf w)).slotCount * (lookup (tagOf w)).bitWidth) →
    unpackValues w = unpackValues w')

/-- R118, the bit-field multiplexer: which tags write output slot i; its value, the constant 1 or a slice of the word; and for b_k > 0, payload bit p below n_k * b_k is bit p mod b_k of slot
p / b_k, on DECODE and on ENCODE alike, with the payload bits above driven 0 by ENCODE. -/
def Obligations.MultiplexerView : Prop :=
  (∀ (k : Tag) (i : Nat), i < 240 → (i < (lookup k).slotCount ↔ k.toNat ≤ lastTagOfSlot i)) ∧
  (∀ (w : Word) (i : Nat), (unpackValues w)[i]?.map BitVec.toNat =
    if i < (lookup (tagOf w)).slotCount then
      some (if (lookup (tagOf w)).bitWidth = 0 then 1
        else w.toNat / 2 ^ (i * (lookup (tagOf w)).bitWidth) % 2 ^ (lookup (tagOf w)).bitWidth)
    else none) ∧
  (∀ (w : Word) (p : Nat), (lookup (tagOf w)).bitWidth ≠ 0 →
    p < (lookup (tagOf w)).slotCount * (lookup (tagOf w)).bitWidth →
    ∃ v, (unpackValues w)[p / (lookup (tagOf w)).bitWidth]? = some v ∧
      v.getLsbD (p % (lookup (tagOf w)).bitWidth) = w.getLsbD p) ∧
  (∀ (k : Tag) (vs : List Word) (p : Nat), eligible k vs = true → (lookup k).bitWidth ≠ 0 → p < 60 →
    (packWord k vs).getLsbD p =
      if p < (lookup k).slotCount * (lookup k).bitWidth then
        (vs.getD (p / (lookup k).bitWidth) 0#64).getLsbD (p % (lookup k).bitWidth)
      else false)

/-- What the host finds after a DECODE: the decoded values at VOUT[0 .. PRODUCED-1], and no entry at 240 and above (R24, R40); that such
an index faults is the model's choice (log entry 8). -/
def Obligations.HostReadsDecodedValues : Prop :=
  ∀ (s t : State) (w : Word) (i : BitVec 8), s.phase = .idle → s.win = .written w → exec .decode s = .next t →
    (i.toNat < (lookup (tagOf w)).slotCount → readVout i t = .next (slotValue (lookup (tagOf w)).bitWidth i.toNat w)) ∧
    (240 ≤ i.toNat → readVout i t = .fault (.voutIndex i.toNat)) ∧
    readProduced t = .next (BitVec.ofNat 8 (lookup (tagOf w)).slotCount) ∧ readStatus t = .next 0#1

/-! ### The codec as a whole -/

/-- R117: a DECODE, by any engine, of the word of an ENCODE that consumed something gives back exactly the values consumed; the word of an
empty ENCODE, which is not part of any stream, gives 240 ones. -/
def Obligations.DecodeUndoesEncode : Prop :=
  ∀ (s t : State) (vs : List Word) (w : Word) (m : BitVec 8), Inputs s vs → exec .encode s = .next t →
    t.wout = .written w → t.consumed = .written m →
    ∀ s' : State, s'.win = .written w → ∃ t' : State, exec .decode s' = .next t' ∧
      (1 ≤ m.toNat → t'.produced = .written m ∧ ∀ i, i < m.toNat → Memory.read t'.vout i = vs[i]?) ∧
      (m.toNat = 0 → w = 0#64 ∧ t'.produced = .written 240#8 ∧ ∀ i, i < 240 → Memory.read t'.vout i = some 1#64)

/-- R59: ENCODE produces only canonical words; a canonical word is what ENCODE gives for the values DECODE finds in it, with COUNT = n_k;
tags 0 and 1 have one canonical word each; and any word decodes as a canonical one with its tag. -/
def Obligations.CanonicalWords : Prop :=
  (∀ (s t : State) (vs : List Word) (w : Word), Inputs s vs → exec .encode s = .next t → t.wout = .written w →
    canonical w = true) ∧
  (∀ (s : State) (w : Word), canonical w = true → Inputs s (unpackValues w) →
    exec .encode s = .next (encodeDone w (BitVec.ofNat 8 (lookup (tagOf w)).slotCount) s)) ∧
  (∀ w : Word, canonical w = true →
    (tagOf w = 0#4 → w = 0x0000000000000000#64 ∧ unpackValues w = List.replicate 240 1#64) ∧
    (tagOf w = 1#4 → w = 0x1000000000000000#64 ∧ unpackValues w = List.replicate 120 1#64)) ∧
  (∀ w : Word, ∃ w' : Word, canonical w' = true ∧ tagOf w' = tagOf w ∧ unpackValues w' = unpackValues w)

/-- R142: every sequence of values below 2^60 encodes, and decoding the words, on any idle engine, gives the sequence back. (Here and
below, of fewer than 2^64 values, so that COUNT can say how many are left: the model's choice for longer ones is log entry 17.) -/
def Obligations.StreamRoundTrip : Prop :=
  ∀ (s : State) (vs : List Word), s.phase = .idle → vs.length < 2 ^ 64 → (∀ v ∈ vs, v.toNat ≤ 2 ^ 60 - 1) →
    ∃ (words : List Word) (t : State), encodeStream vs s = .ok words t ∧
      ∀ s' : State, s'.phase = .idle → Memory.wf s'.vout → ∃ t' : State, decodeStream words s' = some (vs, t')

/-- R143: the loop of ENCODE_STREAM always ends, in words or in OutOfRange; every ENCODE that does not raise consumes at least one value
and no more than there are; none raises when every value is below 2^60; and L values make between L/240 and L words. -/
def Obligations.StreamProgress : Prop :=
  (∀ (s : State) (vs : List Word), s.phase = .idle → vs.length < 2 ^ 64 → encodeStream vs s ≠ .stuck) ∧
  (∀ (s t : State) (vs : List Word) (n : BitVec 8), Inputs s vs → vs ≠ [] → exec .encode s = .next t →
    t.consumed = .written n → 1 ≤ n.toNat ∧ n.toNat ≤ vs.length) ∧
  (∀ (s t : State) (vs : List Word), Inputs s vs → (∀ v ∈ vs, v.toNat < 2 ^ 60) → exec .encode s = .next t →
    t.status = .written 0#1) ∧
  (∀ (s t : State) (vs words : List Word), s.phase = .idle → vs.length < 2 ^ 64 → encodeStream vs s = .ok words t →
    words.length ≤ vs.length ∧ vs.length ≤ 240 * words.length)

/-- R149: ENCODE_STREAM ends in OutOfRange exactly when some value is 2^60 or more; it does so at the first such value, and the words
before it decode to exactly the values before it; the engine is then idle, so the host may go on. -/
def Obligations.StreamOutOfRange : Prop :=
  ∀ (s : State) (vs : List Word), s.phase = .idle → vs.length < 2 ^ 64 →
    ((∃ pos words t, encodeStream vs s = .outOfRange pos words t) ↔ ∃ v ∈ vs, 2 ^ 60 ≤ v.toNat) ∧
    (∀ (pos : Nat) (words : List Word) (t : State), encodeStream vs s = .outOfRange pos words t →
      (∃ v, vs[pos]? = some v ∧ 2 ^ 60 ≤ v.toNat) ∧ (∀ v ∈ vs.take pos, v.toNat < 2 ^ 60) ∧ t.phase = .idle ∧
      ∀ s' : State, s'.phase = .idle → Memory.wf s'.vout → ∃ t' : State, decodeStream words s' = some (vs.take pos, t'))

/-- R9, R151: two ENCODEs given the same values, and two DECODEs given the same word, give the same results, whatever else the two states
hold. -/
def Obligations.CommandsDependOnlyOnOperands : Prop :=
  (∀ (s s' t t' : State) (vs : List Word), Inputs s vs → Inputs s' vs → exec .encode s = .next t →
    exec .encode s' = .next t' →
    t.wout = t'.wout ∧ t.consumed = t'.consumed ∧ t.produced = t'.produced ∧ t.status = t'.status) ∧
  (∀ (s s' t t' : State) (w : Word), s.win = .written w → s'.win = .written w → exec .decode s = .next t →
    exec .decode s' = .next t' →
    t.wout = t'.wout ∧ t.consumed = t'.consumed ∧ t.produced = t'.produced ∧ t.status = t'.status ∧
    ∀ i, i < (lookup (tagOf w)).slotCount → Memory.read t.vout i = Memory.read t'.vout i)

/-- R165, R168: an ENCODE issued again ends the same way; and a command ends the same way whatever the result registers held before,
so no error outlives its command. -/
def Obligations.ErrorIsLocalToItsCommand : Prop :=
  (∀ s t : State, exec .encode s = .next t → exec .encode t = .next t) ∧
  (∀ (i : Instr) (s : State) (a : Reg 64) (b c : Reg 8) (d : Reg 1), i = .encode ∨ i = .decode →
    exec i { s with wout := a, consumed := b, produced := c, status := d } = exec i s)

/-- R172, R41: engines do not disturb each other. Whatever happens to one of them (a command, a completion, a host action) ends in that
engine as it ends alone, whatever states the others are in, and leaves every other as it was; and what happens to two of them, in
either order, ends in the same states. That their memories are disjoint is what R172 asks of the host, built into the model (log
entry 10). -/
def Obligations.EnginesDoNotInterfere : Prop :=
  (∀ (n : Nat) (es es' : Vector State n) (i : Fin n) (act : HostAction),
    (stepEngine i es = .next es' → step es[i] = .next es'[i]) ∧
    (completeEngine i es = .next es' → complete es[i] = .next es'[i]) ∧
    (hostActEngine i act es = .next es' → hostAct act es[i] = .next es'[i]) ∧
    (stepEngine i es = .next es' ∨ completeEngine i es = .next es' ∨ hostActEngine i act es = .next es' →
      ∀ k : Fin n, k ≠ i → es'[k] = es[k])) ∧
  (∀ (n : Nat) (es : Vector State n) (i j : Fin n) (x y : EngineAction) (a b : State), i ≠ j →
    engineAct x es[i] = .next a → engineAct y es[j] = .next b →
      Answer.andThen (actEngine i x es) (actEngine j y) = .next ((es.set i a).set j b) ∧
      Answer.andThen (actEngine j y es) (actEngine i x) = .next ((es.set i a).set j b))

/-! ### PACK.k and UNPACK.k -/

/-- R90, R91: PACK.0 and PACK.1 on values that are all 1, at least 240 or 120 of them. (Here and below: that a PACK.k or UNPACK.k on its
own leaves the other result registers as they were is the model's reading, log entry 5.) -/
def Obligations.PackOnes : Prop :=
  ∀ (s : State) (vs : List Word), Inputs s vs → AllOnes vs →
    (240 ≤ vs.length → exec .pack0 s = .next { s with
      wout := .written 0x0000000000000000#64, consumed := .written 240#8, status := .written 0#1 }) ∧
    (120 ≤ vs.length → exec .pack1 s = .next { s with
      wout := .written 0x1000000000000000#64, consumed := .written 120#8, status := .written 0#1 })

/-- R92 to R96: PACK.2 to PACK.6, with the numbers of each rule. -/
def Obligations.PackNarrowFields : Prop :=
  Packs .pack2 0x2000000000000000#64 60 1 1 ∧ Packs .pack3 0x3000000000000000#64 30 2 3 ∧
  Packs .pack4 0x4000000000000000#64 20 3 7 ∧ Packs .pack5 0x5000000000000000#64 15 4 15 ∧
  Packs .pack6 0x6000000000000000#64 12 5 31

/-- R97 to R105: PACK.7 to PACK.15, with the numbers of each rule. -/
def Obligations.PackWideFields : Prop :=
  Packs .pack7 0x7000000000000000#64 10 6 63 ∧ Packs .pack8 0x8000000000000000#64 8 7 127 ∧
  Packs .pack9 0x9000000000000000#64 7 8 255 ∧ Packs .pack10 0xA000000000000000#64 6 10 1023 ∧
  Packs .pack11 0xB000000000000000#64 5 12 4095 ∧ Packs .pack12 0xC000000000000000#64 4 15 32767 ∧
  Packs .pack13 0xD000000000000000#64 3 20 1048575 ∧ Packs .pack14 0xE000000000000000#64 2 30 1073741823 ∧
  Packs .pack15 0xF000000000000000#64 1 60 1152921504606846975

/-- A PACK.k asked for on its own outside its precondition is refused, by a name of its own, for every k (R86, U4, D23). -/
def Obligations.PackOutsidePreconditionIsRefused : Prop :=
  ∀ (s : State) (vs : List Word) (k : Tag), Inputs s vs → ¬ SpecEligible k vs →
    exec (decodeOutputWord (tagBits k)) s = .refused (.packNotEligible k)

/-- R120, R121: UNPACK.0 and UNPACK.1, for every payload. -/
def Obligations.UnpackOnes : Prop :=
  UnpacksOnes .unpack0 240 ∧ UnpacksOnes .unpack1 120

/-- R122 to R126: UNPACK.2 to UNPACK.6, with the numbers of each rule. -/
def Obligations.UnpackNarrowFields : Prop :=
  Unpacks .unpack2 0x2000000000000000#64 60 1 0x1#64 ∧ Unpacks .unpack3 0x3000000000000000#64 30 2 0x3#64 ∧
  Unpacks .unpack4 0x4000000000000000#64 20 3 0x7#64 ∧ Unpacks .unpack5 0x5000000000000000#64 15 4 0xF#64 ∧
  Unpacks .unpack6 0x6000000000000000#64 12 5 0x1F#64

/-- R127 to R135: UNPACK.7 to UNPACK.15, with the numbers of each rule. -/
def Obligations.UnpackWideFields : Prop :=
  Unpacks .unpack7 0x7000000000000000#64 10 6 0x3F#64 ∧ Unpacks .unpack8 0x8000000000000000#64 8 7 0x7F#64 ∧
  Unpacks .unpack9 0x9000000000000000#64 7 8 0xFF#64 ∧ Unpacks .unpack10 0xA000000000000000#64 6 10 0x3FF#64 ∧
  Unpacks .unpack11 0xB000000000000000#64 5 12 0xFFF#64 ∧ Unpacks .unpack12 0xC000000000000000#64 4 15 0x7FFF#64 ∧
  Unpacks .unpack13 0xD000000000000000#64 3 20 0xFFFFF#64 ∧ Unpacks .unpack14 0xE000000000000000#64 2 30 0x3FFFFFFF#64 ∧
  Unpacks .unpack15 0xF000000000000000#64 1 60 0xFFFFFFFFFFFFFFF#64

/-! ### Registers, reset, the life of a command, the host -/

/-- R18: CONSUMED after an ENCODE without error is the slot count of the selector in WOUT's tag, or 0 when COUNT = 0, and its legal values are
exactly these seventeen; after OutOfRange it is unwritten. -/
def Obligations.ConsumedLegalValues : Prop :=
  (∀ m : Nat, m ∈ [0, 1, 2, 3, 4, 5, 6, 7, 8, 10, 12, 15, 20, 30, 60, 120, 240] ↔ m = 0 ∨ ∃ k : Tag, (lookup k).slotCount = m) ∧
  ∀ (s t : State) (vs : List Word), Inputs s vs → exec .encode s = .next t →
    (t.status = .written 1#1 → t.consumed = .unwritten) ∧
    (t.status = .written 0#1 → ∃ (w : Word) (n : BitVec 8), t.wout = .written w ∧ t.consumed = .written n ∧
      (vs = [] → n = 0#8) ∧ (vs ≠ [] → n.toNat = (lookup (tagOf w)).slotCount) ∧
      n.toNat ∈ [0, 1, 2, 3, 4, 5, 6, 7, 8, 10, 12, 15, 20, 30, 60, 120, 240])

/-- R19: PRODUCED after a DECODE is the slot count of WIN's tag, one of exactly these sixteen values and never 0. -/
def Obligations.ProducedLegalValues : Prop :=
  (∀ m : Nat, m ∈ [1, 2, 3, 4, 5, 6, 7, 8, 10, 12, 15, 20, 30, 60, 120, 240] ↔ ∃ k : Tag, (lookup k).slotCount = m) ∧
  ∀ (s t : State) (w : Word), s.win = .written w → exec .decode s = .next t → ∃ n : BitVec 8, t.produced = .written n ∧
    n.toNat = (lookup (tagOf w)).slotCount ∧ n.toNat ≠ 0 ∧
    n.toNat ∈ [1, 2, 3, 4, 5, 6, 7, 8, 10, 12, 15, 20, 30, 60, 120, 240]

/-- R22 as the host meets it: an issue makes every result register unwritten and reading one is then a fault; after a command the registers it
does not produce are unwritten too, as are WOUT and CONSUMED after OutOfRange. -/
def Obligations.UnwrittenResultsFault : Prop :=
  (∀ s t : State, issue s = .next t →
    readWout t = .fault (.resultUnwritten .wout) ∧ readConsumed t = .fault (.resultUnwritten .consumed) ∧
    readProduced t = .fault (.resultUnwritten .produced) ∧ readStatus t = .fault (.resultUnwritten .status)) ∧
  (∀ s t : State, exec .encode s = .next t → readProduced t = .fault (.resultUnwritten .produced) ∧
    (t.status = .written 1#1 → readWout t = .fault (.resultUnwritten .wout) ∧
      readConsumed t = .fault (.resultUnwritten .consumed)) ∧
    (t.status = .written 0#1 → ∃ w n, readWout t = .next w ∧ readConsumed t = .next n)) ∧
  (∀ s t : State, exec .decode s = .next t → readWout t = .fault (.resultUnwritten .wout) ∧
    readConsumed t = .fault (.resultUnwritten .consumed) ∧ ∃ n, readProduced t = .next n)

/-- R27: what reset leaves in every piece of the engine's state. -/
def Obligations.ResetState : Prop :=
  State.reset.op = .unwritten ∧ State.reset.count = .unwritten ∧ State.reset.win = .unwritten ∧
  State.reset.ResultsUnwritten ∧ State.reset.phase = .idle ∧ step State.reset = .refused (.operandUnwritten .op)

/-- R180: a reset at any time leaves every register unwritten and the engine idle and does not touch VIN; it leaves VOUT too, unless it
abandons a DECODE: then VOUT[0 .. 239] hold values of which nothing is said (the model's free value, log entry 6). -/
def Obligations.ResetAtAnyTime : Prop :=
  ∀ s : State, ∃ t : State, hostAct .reset s = .next t ∧
    t.op = .unwritten ∧ t.count = .unwritten ∧ t.win = .unwritten ∧ t.ResultsUnwritten ∧ t.phase = .idle ∧ t.vin = s.vin ∧
    (s.phase ≠ .busy 1#1 → t.vout = s.vout) ∧
    (s.phase = .busy 1#1 → ∀ i, (∃ v, Memory.read t.vout i = some v) ↔ i < 240)

/-- R182: a command taken apart into issue and completion ends as the one atomic step does. -/
def Obligations.IssueThenCompleteIsStep : Prop :=
  ∀ s : State, Answer.andThen (issue s) complete = step s

/-- R39, R40, R182: while a command is in progress the host may write no operand and no presented entry of VIN, may not touch VOUT, and may not
issue. -/
def Obligations.HostIsRefusedDuringCommand : Prop :=
  ∀ (s : State) (op : BitVec 1), s.phase = .busy op →
    (∀ v, hostAct (.writeOp v) s = .refused .operandChanged) ∧
    (∀ v, hostAct (.writeCount v) s = .refused .operandChanged) ∧
    (∀ v, hostAct (.writeWin v) s = .refused .operandChanged) ∧
    (∀ (i c : BitVec 64) (v : Word), s.count = .written c → i < c → hostAct (.writeVin i v) s = .refused .operandChanged) ∧
    (∀ i v, hostAct (.writeVout i v) s = .refused .voutTouched) ∧
    (∀ i, readVout i s = .refused .voutTouched) ∧
    hostAct .issue s = .refused .commandInProgress

/-- R14, R15, R16, R21, R23, R24, R30, R181: on an idle engine every host write is accepted and does exactly what it says: the register
written holds the value, the entry written reads as the value and every other entry as before, and nothing else changes. Index 240
and above of VOUT faults, and during a command entries of VIN at COUNT and above may still be written (both log entry 8). -/
def Obligations.HostWritesDoWhatTheySay : Prop :=
  (∀ s : State, s.phase = .idle →
    (∀ v, hostAct (.writeOp v) s = .next { s with op := .written v }) ∧
    (∀ v, hostAct (.writeCount v) s = .next { s with count := .written v }) ∧
    (∀ v, hostAct (.writeWin v) s = .next { s with win := .written v }) ∧
    (∀ (i : BitVec 8) (v : Word), i.toNat < 240 → ∃ t, hostAct (.writeVout i v) s = .next t ∧ t = { s with vout := t.vout } ∧
      ∀ j, Memory.read t.vout j = if j = i.toNat then some v else Memory.read s.vout j) ∧
    (∀ (i : BitVec 8) (v : Word), 240 ≤ i.toNat → hostAct (.writeVout i v) s = .fault (.voutIndex i.toNat))) ∧
  (∀ (s : State) (i : BitVec 64) (v : Word),
    (s.phase = .idle ∨ s.count = .unwritten ∨ ∃ c, s.count = .written c ∧ c ≤ i) →
    ∃ t, hostAct (.writeVin i v) s = .next t ∧ t = { s with vin := t.vin } ∧
      ∀ j, Memory.read t.vin j = if j = i.toNat then some v else Memory.read s.vin j)

/-- R22, R27, R181, R182, R183: an issue is accepted exactly when no command is in progress, OP is written and the operands of the
selected command are there; it samples OP, makes the result registers unwritten and changes nothing else; and the command so issued
completes, and leaves the engine idle. That the operands are checked at issue is the model's choice (log entry 15). -/
def Obligations.IssueIsAcceptedExactlyWhenReady : Prop :=
  (∀ s : State, Memory.wf s.vin → ((∃ t, issue s = .next t) ↔ s.Ready)) ∧
  (∀ s t : State, issue s = .next t → ∃ op, s.op = .written op ∧
    t = { s with wout := .unwritten, consumed := .unwritten, produced := .unwritten, status := .unwritten, phase := .busy op } ∧
    ∃ u, complete t = .next u ∧ u.phase = .idle)

/-! ### The invariant -/

/-- The machine's invariant holds at reset (R27, R30). R27 leaves VIN and VOUT to the host; that State.reset lists nothing in them, and
the canonical form, are the model's choice (log entry 2). -/
def Obligations.InvariantHoldsAtReset : Prop := State.reset.Inv

/-- Every step keeps the invariant: both memories stay canonical and within their index ranges (R30), and the result registers are
as some command leaves them (R18 to R22, R59, R106, R136). The canonical form is the model's (log entry 2). -/
def Obligations.EveryStepKeepsInvariant : Prop :=
  ∀ s t : State, s.Inv → step s = .next t → t.Inv

/-- Every host action, and the completion of an issued command, keeps the invariant. The canonical form of the memories is the model's
(log entry 2). -/
def Obligations.HostAndCompletionKeepInvariant : Prop :=
  (∀ (a : HostAction) (s t : State), s.Inv → hostAct a s = .next t → t.Inv) ∧
  (∀ s t : State, s.Inv → complete s = .next t → t.Inv)
end

