-- ==== Sys2Proof/Laws/Memory.lean ====
section
/-! SUPPORT. The laws of the entry memories: read after write, and the canonical form that every operation keeps. -/

namespace Sys2Proof.Machine

@[simp] theorem Memory.read_nil (i : Nat) : Memory.read [] i = none := rfl

theorem Memory.read_cons (a : Nat) (v : Word) (m : Memory) (i : Nat) :
    Memory.read ((a, v) :: m) i = if a = i then some v else Memory.read m i := rfl

/-- A write changes the entry written and no other. -/
@[simp] theorem Memory.read_write (m : Memory) (i : Nat) (v : Word) (j : Nat) :
    Memory.read (Memory.write m i v) j = if j = i then some v else Memory.read m j := by
  induction m with
  | nil => simp only [Memory.write, Memory.read]; grind
  | cons e rest ih =>
    obtain ⟨a, u⟩ := e
    simp only [Memory.write]
    split
    · simp only [Memory.read]; grind
    · split
      · simp only [Memory.read]; grind
      · simp only [Memory.read, ih]; grind

/-- Writing a run of values changes the entries of the run and no other. -/
@[simp] theorem Memory.read_writeFrom (m : Memory) (i : Nat) (vs : List Word) (j : Nat) :
    Memory.read (Memory.writeFrom m i vs) j =
      if i ≤ j ∧ j < i + vs.length then vs[j - i]? else Memory.read m j := by
  induction vs generalizing i with
  | nil => simp [Memory.writeFrom]
  | cons v vs ih =>
    simp only [Memory.writeFrom, Memory.read_write, ih, List.length_cons]
    by_cases hji : j = i
    · subst hji; simp
    · by_cases h : i + 1 ≤ j ∧ j < i + 1 + vs.length
      · have h' : i ≤ j ∧ j < i + (vs.length + 1) := by omega
        obtain ⟨d, hd⟩ : ∃ d, j - i = d + 1 := ⟨j - i - 1, by omega⟩
        have : j - (i + 1) = d := by omega
        simp [hji, h, h', hd, this]
      · have h' : ¬ (i ≤ j ∧ j < i + (vs.length + 1)) := by omega
        rw [if_neg hji, if_neg h, if_neg h']

theorem Memory.read_ofList (i : Nat) (vs : List Word) (j : Nat) :
    Memory.read (Memory.ofList i vs) j = if i ≤ j then vs[j - i]? else none := by
  induction vs generalizing i with
  | nil => simp [Memory.ofList]
  | cons v vs ih =>
    simp only [Memory.ofList, Memory.read, ih]
    by_cases hji : i = j
    · subst hji; simp
    · by_cases h : i + 1 ≤ j
      · obtain ⟨d, hd⟩ : ∃ d, j - i = d + 1 := ⟨j - i - 1, by omega⟩
        have h2 : j - (i + 1) = d := by omega
        have h3 : i ≤ j := by omega
        simp [hji, h, h2, h3, hd]
      · have h3 : ¬ i ≤ j := by omega
        simp [hji, h, h3]

/-- The indexes after a write are those before it and the one written. -/
theorem Memory.mem_write {m : Memory} {i : Nat} {v : Word} {e : Nat × Word} (h : e ∈ Memory.write m i v) :
    e = (i, v) ∨ e ∈ m := by
  induction m with
  | nil => simpa [Memory.write] using h
  | cons x rest ih =>
    obtain ⟨a, u⟩ := x
    simp only [Memory.write] at h
    split at h
    · simpa using h
    · split at h
      · rcases List.mem_cons.1 h with h | h
        · exact .inl h
        · exact .inr (List.mem_cons_of_mem _ h)
      · rcases List.mem_cons.1 h with h | h
        · exact .inr (by simp [h])
        · rcases ih h with h | h
          · exact .inl h
          · exact .inr (List.mem_cons_of_mem _ h)

theorem Memory.wf_cons {a : Nat} {v : Word} {m : Memory} :
    Memory.wf ((a, v) :: m) ↔ (∀ e ∈ m, a < e.1) ∧ Memory.wf m := by
  simp [Memory.wf]

/-- A write keeps the canonical form. -/
theorem Memory.wf_write {m : Memory} (h : Memory.wf m) (i : Nat) (v : Word) : Memory.wf (Memory.write m i v) := by
  induction m with
  | nil => simp [Memory.write, Memory.wf]
  | cons x rest ih =>
    obtain ⟨a, u⟩ := x
    obtain ⟨ha, hr⟩ := Memory.wf_cons.1 h
    simp only [Memory.write]
    split
    · rename_i hia
      refine Memory.wf_cons.2 ⟨fun e he => ?_, h⟩
      rcases List.mem_cons.1 he with rfl | he
      · exact hia
      · exact hia.trans (ha e he)
    · split
      · rename_i hia
        subst hia
        exact Memory.wf_cons.2 ⟨ha, hr⟩
      · refine Memory.wf_cons.2 ⟨fun e he => ?_, ih hr⟩
        rcases Memory.mem_write he with rfl | he
        · show a < i; omega
        · exact ha e he

/-- A write at an index below `n` keeps every index below `n`. -/
theorem Memory.below_write {m : Memory} {n i : Nat} (h : Memory.below n m) (hi : i < n) (v : Word) :
    Memory.below n (Memory.write m i v) := by
  intro e he
  rcases Memory.mem_write he with rfl | he
  · exact hi
  · exact h e he

theorem Memory.wf_writeFrom {m : Memory} (h : Memory.wf m) (i : Nat) (vs : List Word) :
    Memory.wf (Memory.writeFrom m i vs) := by
  induction vs generalizing i with
  | nil => exact h
  | cons v vs ih => exact Memory.wf_write (ih _) i v

theorem Memory.below_writeFrom {m : Memory} {n : Nat} (h : Memory.below n m) (i : Nat) (vs : List Word)
    (hi : i + vs.length ≤ n) : Memory.below n (Memory.writeFrom m i vs) := by
  induction vs generalizing i with
  | nil => exact h
  | cons v vs ih =>
    simp only [List.length_cons] at hi
    exact Memory.below_write (ih (i + 1) (by omega)) (by omega) v

theorem Memory.mem_ofList {i : Nat} {vs : List Word} {e : Nat × Word} (h : e ∈ Memory.ofList i vs) :
    i ≤ e.1 ∧ e.1 < i + vs.length := by
  induction vs generalizing i with
  | nil => simp [Memory.ofList] at h
  | cons v vs ih =>
    rcases List.mem_cons.1 h with rfl | h
    · simp
    · have := ih h
      simp only [List.length_cons]
      omega

theorem Memory.wf_ofList (i : Nat) (vs : List Word) : Memory.wf (Memory.ofList i vs) := by
  induction vs generalizing i with
  | nil => simp [Memory.ofList, Memory.wf]
  | cons v vs ih => exact Memory.wf_cons.2 ⟨fun e he => by have := Memory.mem_ofList he; omega, ih _⟩

/-- The run read from a memory holds what the entries hold. -/
theorem Memory.runFrom_get {m : Memory} {i j : Nat} (h : j < (Memory.runFrom i m).length) :
    Memory.read m (i + j) = (Memory.runFrom i m)[j]? := by
  induction m generalizing i j with
  | nil => simp [Memory.runFrom] at h
  | cons x rest ih =>
    obtain ⟨a, v⟩ := x
    simp only [Memory.runFrom] at h ⊢
    split at h
    · rename_i hai
      subst hai
      cases j with
      | zero => simp [Memory.read]
      | succ j =>
        have hj : j < (Memory.runFrom (a + 1) rest).length := by simpa using h
        have := ih hj
        have e : a + 1 + j = a + (j + 1) := by omega
        rw [e] at this
        simp [Memory.read, this]
    · simp at h

/-- In canonical form, a memory that holds entries i .. i+c-1 and nothing below i has a run of at least c. -/
theorem Memory.le_runFrom {m : Memory} (h : Memory.wf m) {i c : Nat} (hlow : ∀ e ∈ m, i ≤ e.1)
    (hc : ∀ j < c, Memory.read m (i + j) ≠ none) : c ≤ (Memory.runFrom i m).length := by
  induction m generalizing i c with
  | nil =>
    cases c with
    | zero => simp
    | succ c => exact absurd rfl (hc 0 (by omega))
  | cons x rest ih =>
    obtain ⟨a, v⟩ := x
    obtain ⟨ha, hr⟩ := Memory.wf_cons.1 h
    cases c with
    | zero => simp
    | succ c =>
      have none_of : ∀ (m : Memory) (k : Nat), (∀ e ∈ m, k < e.1) → Memory.read m k = none := by
        intro m k hk
        induction m with
        | nil => rfl
        | cons y r ihr =>
          have h1 := hk y (by simp)
          have h2 : ¬ y.1 = k := by omega
          obtain ⟨b, u⟩ := y
          simp only [Memory.read] at *
          simp [h2, ihr (fun e he => hk e (List.mem_cons_of_mem _ he))]
      have hai : a = i := by
        by_contra hne
        have h0 := hc 0 (by omega)
        have hlt : i < a := lt_of_le_of_ne (hlow (a, v) (by simp)) (Ne.symm hne)
        refine h0 (none_of _ _ fun e he => ?_)
        rcases List.mem_cons.1 he with rfl | he
        · exact hlt
        · exact (show i + 0 < e.1 by have := ha e he; omega)
      subst hai
      simp only [Memory.runFrom, if_true, List.length_cons]
      refine Nat.succ_le_succ (ih hr (fun e he => ha e he) fun j hj => ?_)
      have := hc (j + 1) (by omega)
      have hne : ¬ a = a + (j + 1) := by omega
      have e : a + 1 + j = a + (j + 1) := by omega
      rw [e]
      simpa [Memory.read, hne] using this

/-- What `firstN` answers is what the entries hold. -/
theorem Memory.firstN_some {m : Memory} {c : Nat} {vs : List Word} (h : Memory.firstN m c = some vs) :
    vs.length = c ∧ ∀ j < c, Memory.read m j = vs[j]? := by
  unfold Memory.firstN at h
  split at h
  · rename_i hc
    cases h
    refine ⟨by simpa using hc, fun j hj => ?_⟩
    have := Memory.runFrom_get (m := m) (i := 0) (j := j) (by omega)
    simpa [hj] using this
  · cases h

/-- In canonical form, `firstN` answers the values that the first entries hold. -/
theorem Memory.firstN_of_read {m : Memory} (h : Memory.wf m) {vs : List Word}
    (hr : ∀ j < vs.length, Memory.read m j = vs[j]?) : Memory.firstN m vs.length = some vs := by
  have hle : vs.length ≤ (Memory.runFrom 0 m).length := by
    refine Memory.le_runFrom h (fun _ _ => Nat.zero_le _) fun j hj => ?_
    rw [Nat.zero_add, hr j hj]
    simp [hj]
  unfold Memory.firstN
  rw [if_pos hle]
  congr 1
  refine List.ext_getElem? fun j => ?_
  by_cases hj : j < vs.length
  · have := Memory.runFrom_get (m := m) (i := 0) (j := j) (by omega)
    rw [Nat.zero_add, hr j hj] at this
    simp [hj, ← this]
  · simp [hj]

end Sys2Proof.Machine
end

