-- ==== Sys2Proof/Laws/State.lean ====
section
/-! SUPPORT. One lemma per field for each update of the state, so that no proof unfolds a record update. -/

namespace Sys2Proof.Machine

@[simp] theorem clearResults_op (s : State) :
    (clearResults s).op = s.op := rfl
@[simp] theorem clearResults_count (s : State) :
    (clearResults s).count = s.count := rfl
@[simp] theorem clearResults_win (s : State) :
    (clearResults s).win = s.win := rfl
@[simp] theorem clearResults_wout (s : State) :
    (clearResults s).wout = .unwritten := rfl
@[simp] theorem clearResults_consumed (s : State) :
    (clearResults s).consumed = .unwritten := rfl
@[simp] theorem clearResults_produced (s : State) :
    (clearResults s).produced = .unwritten := rfl
@[simp] theorem clearResults_status (s : State) :
    (clearResults s).status = .unwritten := rfl
@[simp] theorem clearResults_vin (s : State) :
    (clearResults s).vin = s.vin := rfl
@[simp] theorem clearResults_vout (s : State) :
    (clearResults s).vout = s.vout := rfl
@[simp] theorem clearResults_phase (s : State) :
    (clearResults s).phase = s.phase := rfl
@[simp] theorem clearResults_freeCount (s : State) :
    (clearResults s).freeCount = s.freeCount := rfl

@[simp] theorem completeEncode_op (w : Word) (n : Nat) (s : State) :
    (completeEncode w n s).op = s.op := rfl
@[simp] theorem completeEncode_count (w : Word) (n : Nat) (s : State) :
    (completeEncode w n s).count = s.count := rfl
@[simp] theorem completeEncode_win (w : Word) (n : Nat) (s : State) :
    (completeEncode w n s).win = s.win := rfl
@[simp] theorem completeEncode_wout (w : Word) (n : Nat) (s : State) :
    (completeEncode w n s).wout = .written w := rfl
@[simp] theorem completeEncode_consumed (w : Word) (n : Nat) (s : State) :
    (completeEncode w n s).consumed = .written (BitVec.ofNat 8 n) := rfl
@[simp] theorem completeEncode_produced (w : Word) (n : Nat) (s : State) :
    (completeEncode w n s).produced = s.produced := rfl
@[simp] theorem completeEncode_status (w : Word) (n : Nat) (s : State) :
    (completeEncode w n s).status = .written statusOk := rfl
@[simp] theorem completeEncode_vin (w : Word) (n : Nat) (s : State) :
    (completeEncode w n s).vin = s.vin := rfl
@[simp] theorem completeEncode_vout (w : Word) (n : Nat) (s : State) :
    (completeEncode w n s).vout = s.vout := rfl
@[simp] theorem completeEncode_phase (w : Word) (n : Nat) (s : State) :
    (completeEncode w n s).phase = s.phase := rfl
@[simp] theorem completeEncode_freeCount (w : Word) (n : Nat) (s : State) :
    (completeEncode w n s).freeCount = s.freeCount := rfl

@[simp] theorem raiseOutOfRange_op (s : State) :
    (raiseOutOfRange s).op = s.op := rfl
@[simp] theorem raiseOutOfRange_count (s : State) :
    (raiseOutOfRange s).count = s.count := rfl
@[simp] theorem raiseOutOfRange_win (s : State) :
    (raiseOutOfRange s).win = s.win := rfl
@[simp] theorem raiseOutOfRange_wout (s : State) :
    (raiseOutOfRange s).wout = .unwritten := rfl
@[simp] theorem raiseOutOfRange_consumed (s : State) :
    (raiseOutOfRange s).consumed = .unwritten := rfl
@[simp] theorem raiseOutOfRange_produced (s : State) :
    (raiseOutOfRange s).produced = s.produced := rfl
@[simp] theorem raiseOutOfRange_status (s : State) :
    (raiseOutOfRange s).status = .written statusOutOfRange := rfl
@[simp] theorem raiseOutOfRange_vin (s : State) :
    (raiseOutOfRange s).vin = s.vin := rfl
@[simp] theorem raiseOutOfRange_vout (s : State) :
    (raiseOutOfRange s).vout = s.vout := rfl
@[simp] theorem raiseOutOfRange_phase (s : State) :
    (raiseOutOfRange s).phase = s.phase := rfl
@[simp] theorem raiseOutOfRange_freeCount (s : State) :
    (raiseOutOfRange s).freeCount = s.freeCount := rfl

@[simp] theorem completeDecode_op (us : List Word) (s : State) :
    (completeDecode us s).op = s.op := rfl
@[simp] theorem completeDecode_count (us : List Word) (s : State) :
    (completeDecode us s).count = s.count := rfl
@[simp] theorem completeDecode_win (us : List Word) (s : State) :
    (completeDecode us s).win = s.win := rfl
@[simp] theorem completeDecode_wout (us : List Word) (s : State) :
    (completeDecode us s).wout = s.wout := rfl
@[simp] theorem completeDecode_consumed (us : List Word) (s : State) :
    (completeDecode us s).consumed = s.consumed := rfl
@[simp] theorem completeDecode_produced (us : List Word) (s : State) :
    (completeDecode us s).produced = .written (BitVec.ofNat 8 us.length) := rfl
@[simp] theorem completeDecode_status (us : List Word) (s : State) :
    (completeDecode us s).status = .written statusOk := rfl
@[simp] theorem completeDecode_vin (us : List Word) (s : State) :
    (completeDecode us s).vin = s.vin := rfl
@[simp] theorem completeDecode_vout (us : List Word) (s : State) :
    (completeDecode us s).vout = Memory.writeFrom s.vout 0 us := rfl
@[simp] theorem completeDecode_phase (us : List Word) (s : State) :
    (completeDecode us s).phase = s.phase := rfl
@[simp] theorem completeDecode_freeCount (us : List Word) (s : State) :
    (completeDecode us s).freeCount = s.freeCount := rfl

@[simp] theorem pack_op (k : Tag) (vs : List Word) (s : State) :
    (pack k vs s).op = s.op := rfl
@[simp] theorem pack_count (k : Tag) (vs : List Word) (s : State) :
    (pack k vs s).count = s.count := rfl
@[simp] theorem pack_win (k : Tag) (vs : List Word) (s : State) :
    (pack k vs s).win = s.win := rfl
@[simp] theorem pack_wout (k : Tag) (vs : List Word) (s : State) :
    (pack k vs s).wout = .written (packWord k vs) := rfl
@[simp] theorem pack_consumed (k : Tag) (vs : List Word) (s : State) :
    (pack k vs s).consumed = .written (BitVec.ofNat 8 (lookup k).slotCount) := rfl
@[simp] theorem pack_produced (k : Tag) (vs : List Word) (s : State) :
    (pack k vs s).produced = s.produced := rfl
@[simp] theorem pack_status (k : Tag) (vs : List Word) (s : State) :
    (pack k vs s).status = .written statusOk := rfl
@[simp] theorem pack_vin (k : Tag) (vs : List Word) (s : State) :
    (pack k vs s).vin = s.vin := rfl
@[simp] theorem pack_vout (k : Tag) (vs : List Word) (s : State) :
    (pack k vs s).vout = s.vout := rfl
@[simp] theorem pack_phase (k : Tag) (vs : List Word) (s : State) :
    (pack k vs s).phase = s.phase := rfl
@[simp] theorem pack_freeCount (k : Tag) (vs : List Word) (s : State) :
    (pack k vs s).freeCount = s.freeCount := rfl

@[simp] theorem unpack_op (w : Word) (s : State) :
    (unpack w s).op = s.op := rfl
@[simp] theorem unpack_count (w : Word) (s : State) :
    (unpack w s).count = s.count := rfl
@[simp] theorem unpack_win (w : Word) (s : State) :
    (unpack w s).win = s.win := rfl
@[simp] theorem unpack_wout (w : Word) (s : State) :
    (unpack w s).wout = s.wout := rfl
@[simp] theorem unpack_consumed (w : Word) (s : State) :
    (unpack w s).consumed = s.consumed := rfl
@[simp] theorem unpack_produced (w : Word) (s : State) :
    (unpack w s).produced = .written (BitVec.ofNat 8 (unpackValues w).length) := rfl
@[simp] theorem unpack_status (w : Word) (s : State) :
    (unpack w s).status = .written statusOk := rfl
@[simp] theorem unpack_vin (w : Word) (s : State) :
    (unpack w s).vin = s.vin := rfl
@[simp] theorem unpack_vout (w : Word) (s : State) :
    (unpack w s).vout = Memory.writeFrom s.vout 0 (unpackValues w) := rfl
@[simp] theorem unpack_phase (w : Word) (s : State) :
    (unpack w s).phase = s.phase := rfl
@[simp] theorem unpack_freeCount (w : Word) (s : State) :
    (unpack w s).freeCount = s.freeCount := rfl

end Sys2Proof.Machine
end

