-- ==== Sys2Proof/Laws/Ops.lean ====
section
/-! SUPPORT. For each shared operation, what it can do, said once. -/

namespace Sys2Proof.Machine

/-- `andThen` answers a result exactly when both operations do. -/
theorem Answer.andThen_next {α β : Type} {a : Answer α} {f : α → Answer β} {y : β} :
    Answer.andThen a f = .next y ↔ ∃ x, a = .next x ∧ f x = .next y := by
  cases a <;> simp [Answer.andThen]

/-- ENCODE is given the values that `Inputs` says. -/
theorem encodeInput_of_inputs {s : State} {vs : List Word} (h : Inputs s vs) : encodeInput s = .ok vs := by
  obtain ⟨hc, hlt, hwf, hr⟩ := h
  have e : (BitVec.ofNat 64 vs.length).toNat = vs.length := by
    rw [BitVec.toNat_ofNat, Nat.mod_eq_of_lt hlt]
  simp only [encodeInput, hc, e, Memory.firstN_of_read hwf hr]

/-- A host that places an ENCODE as R64 writes it has given ENCODE its values. -/
theorem inputs_placed (vs : List Word) (h : vs.length < 2 ^ 64) (s : State) :
    Inputs (placeCommand (.encode (BitVec.ofNat 64 vs.length) vs) s) vs :=
  ⟨rfl, h, Memory.wf_ofList 0 vs, fun j _ => by simp [placeCommand, Memory.read_ofList]⟩

/-- What it can mean that ENCODE has its operands: COUNT is written and VIN holds that many values. -/
theorem encodeInput_ok {s : State} {vs : List Word} (h : encodeInput s = .ok vs) :
    ∃ c, s.count = .written c ∧ vs.length = c.toNat ∧ ∀ j < vs.length, Memory.read s.vin j = vs[j]? := by
  unfold encodeInput at h
  split at h
  · cases h
  · rename_i c hc
    split at h
    · cases h
    · rename_i us hus
      cases h
      obtain ⟨hl, hr⟩ := Memory.firstN_some hus
      exact ⟨c, hc, hl, by rw [hl]; exact hr⟩

/-- With VIN in canonical form, having the operands is what `Inputs` says. -/
theorem inputs_of_encodeInput {s : State} {vs : List Word} (hwf : Memory.wf s.vin) (h : encodeInput s = .ok vs) :
    Inputs s vs := by
  obtain ⟨c, hc, hl, hr⟩ := encodeInput_ok h
  have hlt : vs.length < 2 ^ 64 := hl ▸ c.isLt
  refine ⟨?_, hlt, hwf, hr⟩
  rw [hc, hl]
  simp

/-- Clearing twice is clearing once. -/
@[simp] theorem clearResults_clearResults (s : State) : clearResults (clearResults s) = clearResults s := rfl

/-- The three ways an ENCODE can end (R106). -/
theorem execEncode_next {s t : State} (h : execEncode s = .next t) :
    ∃ vs, encodeInput s = .ok vs ∧
      ((vs = [] ∧ t = completeEncode 0#64 0 (clearResults s)) ∨
       (∃ k, vs ≠ [] ∧ select vs = some k ∧ t = pack k vs (clearResults s)) ∨
       (vs ≠ [] ∧ select vs = none ∧ t = raiseOutOfRange (clearResults s))) := by
  unfold execEncode at h
  split at h
  · cases h
  · rename_i hi
    cases h
    exact ⟨[], hi, .inl ⟨rfl, rfl⟩⟩
  · rename_i v vs hi
    refine ⟨v :: vs, hi, .inr ?_⟩
    split at h
    · rename_i k hk
      cases h
      exact .inl ⟨k, by simp, hk, rfl⟩
    · rename_i hk
      cases h
      exact .inr ⟨by simp, hk, rfl⟩

/-- The one way a DECODE can end, up to the word. -/
theorem execDecode_next {s t : State} (h : execDecode s = .next t) :
    ∃ w, s.win = .written w ∧ t = unpack w (clearResults s) := by
  unfold execDecode at h
  split at h
  · cases h
  · rename_i w hw
    cases h
    exact ⟨w, hw, rfl⟩

/-- A PACK.k completes exactly under its precondition, with the generic pack (R86). -/
theorem packAt_next {k : Tag} {s t : State} :
    packAt k s = .next t ↔ ∃ vs, encodeInput s = .ok vs ∧ eligible k vs = true ∧ t = pack k vs s := by
  unfold packAt
  constructor
  · intro h
    split at h
    · cases h
    · rename_i vs hi
      split at h
      · rename_i he
        cases h
        exact ⟨vs, hi, he, rfl⟩
      · cases h
  · rintro ⟨vs, hi, he, rfl⟩
    rw [hi]
    exact if_pos he

/-- A fetch finds a command exactly when the engine is idle and OP is written. -/
theorem fetch_next {s : State} {i : Instr} :
    fetch s = .next i ↔ s.phase = .idle ∧ ∃ op, s.op = .written op ∧ i = decodeCommand op := by
  unfold fetch
  cases s.phase <;> cases s.op <;> simp [eq_comm]

/-- What a step can do: it is the selected command, run on an idle engine. -/
theorem step_next {s t : State} :
    step s = .next t ↔ ∃ op, s.phase = .idle ∧ s.op = .written op ∧ exec (decodeCommand op) s = .next t := by
  unfold step
  rw [Answer.andThen_next]
  constructor
  · rintro ⟨i, hi, h⟩
    obtain ⟨hp, op, ho, rfl⟩ := fetch_next.1 hi
    exact ⟨op, hp, ho, h⟩
  · rintro ⟨op, hp, ho, h⟩
    exact ⟨_, fetch_next.2 ⟨hp, op, ho, rfl⟩, h⟩

/-- The commands a code can select. -/
theorem decodeCommand_cases (op : BitVec 1) :
    (op = 0#1 ∧ decodeCommand op = .encode) ∨ (op = 1#1 ∧ decodeCommand op = .decode) := by
  revert op; decide

/-- What a step can do, by command. -/
theorem step_cases {s t : State} (h : step s = .next t) :
    s.phase = .idle ∧
      ((s.op = .written 0#1 ∧ execEncode s = .next t) ∨ (s.op = .written 1#1 ∧ execDecode s = .next t)) := by
  obtain ⟨op, hp, ho, h⟩ := step_next.1 h
  rcases decodeCommand_cases op with ⟨rfl, e⟩ | ⟨rfl, e⟩ <;> rw [e] at h
  · exact ⟨hp, .inl ⟨ho, h⟩⟩
  · exact ⟨hp, .inr ⟨ho, h⟩⟩

/-- The number of values an UNPACK writes. -/
@[simp] theorem length_unpackValues (w : Word) : (unpackValues w).length = (lookup (tagOf w)).slotCount := by
  simp [unpackValues]

/-- The value an UNPACK writes to each slot (R112). -/
theorem getElem?_unpackValues (w : Word) (i : Nat) :
    (unpackValues w)[i]? =
      if i < (lookup (tagOf w)).slotCount then some (slotValue (lookup (tagOf w)).bitWidth i w) else none := by
  by_cases h : i < (lookup (tagOf w)).slotCount
  · simp [unpackValues, h]
  · simp [unpackValues, h]

/-- No selector has more slots than VOUT has entries (R33). -/
theorem slotCount_le (k : Tag) : (lookup k).slotCount ≤ Config.voutCapacity := by revert k; decide

/-- What is in VOUT after an UNPACK: the slots of the word below its slot count, and what was there above (R114). -/
theorem read_unpack (w : Word) (s : State) (i : Nat) :
    Memory.read (unpack w s).vout i =
      if i < (lookup (tagOf w)).slotCount then some (slotValue (lookup (tagOf w)).bitWidth i w)
      else Memory.read s.vout i := by
  simp only [unpack_vout, Memory.read_writeFrom, length_unpackValues, Nat.zero_le, true_and, Nat.zero_add, Nat.sub_zero,
    getElem?_unpackValues]
  split <;> rfl

/-- The operands of a command are there exactly when ENCODE has its values, or DECODE its word. -/
theorem operandCheck_none {op : BitVec 1} {s : State} :
    operandCheck op s = none ↔
      (op = 0#1 ∧ ∃ vs, encodeInput s = .ok vs) ∨ (op = 1#1 ∧ ∃ w, s.win = .written w) := by
  rcases decodeCommand_cases op with ⟨rfl, -⟩ | ⟨rfl, -⟩
  · cases h : encodeInput s <;> simp [operandCheck, h]
  · cases h : s.win <;> simp [operandCheck, h]

/-- An issue finds an idle engine with OP written and the operands of its command there, and clears the results (R182). -/
theorem issue_next {s t : State} :
    issue s = .next t ↔
      ∃ op, s.phase = .idle ∧ s.op = .written op ∧ operandCheck op s = none ∧
        t = { clearResults s with phase := .busy op } := by
  unfold issue
  cases s.phase with
  | busy _ => simp
  | idle =>
    cases s.op with
    | unwritten => simp
    | written op => cases h : operandCheck op s <;> simp [h, eq_comm]

/-- A completion finds a busy engine and runs the sampled command (R182). -/
theorem complete_next {s t : State} :
    complete s = .next t ↔
      ∃ op u, s.phase = .busy op ∧ exec (decodeCommand op) s = .next u ∧ t = { u with phase := .idle } := by
  unfold complete
  cases h : s.phase with
  | idle => simp
  | busy op =>
    simp only [Answer.andThen_next]
    constructor
    · rintro ⟨u, hu, e⟩
      cases e
      exact ⟨op, u, rfl, hu, rfl⟩
    · rintro ⟨op', u, e, hu, rfl⟩
      cases e
      exact ⟨u, hu, rfl⟩

/-- The memories of the state after reset are in canonical form. -/
theorem reset_wf : Memory.wf State.reset.vin ∧ Memory.wf State.reset.vout := by
  simp [State.reset, Memory.wf]

/-- VOUT after an abandoned DECODE is in canonical form, and holds the entries 0 to 239 and no others (R180). -/
theorem freeVout_wf (n : Nat) : Memory.wf (freeVout n) ∧ Memory.below Config.voutCapacity (freeVout n) := by
  constructor
  · simp only [freeVout, Memory.wf, List.map_map]
    exact (List.map_id _).symm ▸ List.pairwise_lt_range
  · intro e he
    obtain ⟨i, hi, rfl⟩ := List.mem_map.1 he
    exact List.mem_range.1 hi

/-- A reset keeps VIN, and leaves every register unwritten and the engine idle (R27, R180). -/
theorem resetEngine_fields (s : State) :
    (resetEngine s).op = .unwritten ∧ (resetEngine s).count = .unwritten ∧ (resetEngine s).win = .unwritten ∧
      (resetEngine s).ResultsUnwritten ∧ (resetEngine s).vin = s.vin ∧ (resetEngine s).phase = .idle ∧
      ((resetEngine s).vout = s.vout ∨ (resetEngine s).vout = freeVout s.freeCount) := by
  unfold resetEngine
  split <;> simp [State.reset, State.ResultsUnwritten]

/-- What happens to one engine of several ends in that engine as it ends alone, and nothing else changes (R172). -/
theorem actEngine_next {n : Nat} {i : Fin n} {x : EngineAction} {es es' : Vector State n} :
    actEngine i x es = .next es' ↔ ∃ t, engineAct x es[i] = .next t ∧ es' = es.set i t := by
  unfold actEngine
  rw [Answer.andThen_next]
  exact exists_congr fun t => and_congr_right fun _ => ⟨fun h => by cases h; rfl, fun h => by rw [h]⟩

/-- A host action that completes, by cases. -/
theorem hostAct_next {a : HostAction} {s t : State} (h : hostAct a s = .next t) :
    (∃ v, a = .writeOp v ∧ s.phase = .idle ∧ t = { s with op := .written v }) ∨
    (∃ v, a = .writeCount v ∧ s.phase = .idle ∧ t = { s with count := .written v }) ∨
    (∃ v, a = .writeWin v ∧ s.phase = .idle ∧ t = { s with win := .written v }) ∨
    (∃ i v, a = .writeVin i v ∧ t = { s with vin := Memory.write s.vin i.toNat v }) ∨
    (∃ i v, a = .writeVout i v ∧ s.phase = .idle ∧ i.toNat < Config.voutCapacity ∧
      t = { s with vout := Memory.write s.vout i.toNat v }) ∨
    (a = .issue ∧ issue s = .next t) ∨
    (a = .reset ∧ t = resetEngine s) := by
  have hb : isBusy s = false → s.phase = .idle := by
    unfold isBusy
    cases s.phase <;> simp
  cases a with
  | writeOp v =>
    simp only [hostAct] at h
    split at h
    · cases h
    · rename_i hn
      cases h
      exact .inl ⟨v, rfl, hb (by simpa using hn), rfl⟩
  | writeCount v =>
    simp only [hostAct] at h
    split at h
    · cases h
    · rename_i hn
      cases h
      exact .inr (.inl ⟨v, rfl, hb (by simpa using hn), rfl⟩)
  | writeWin v =>
    simp only [hostAct] at h
    split at h
    · cases h
    · rename_i hn
      cases h
      exact .inr (.inr (.inl ⟨v, rfl, hb (by simpa using hn), rfl⟩))
  | writeVin i v =>
    simp only [hostAct] at h
    split at h
    · cases h
    · cases h
      exact .inr (.inr (.inr (.inl ⟨i, v, rfl, rfl⟩)))
  | writeVout i v =>
    simp only [hostAct] at h
    split at h
    · cases h
    · rename_i hn
      split at h
      · cases h
      · rename_i hi
        cases h
        exact .inr (.inr (.inr (.inr (.inl ⟨i, v, rfl, hb (by simpa using hn), by omega, rfl⟩))))
  | issue => exact .inr (.inr (.inr (.inr (.inr (.inl ⟨rfl, h⟩)))))
  | reset =>
    simp only [hostAct] at h
    cases h
    exact .inr (.inr (.inr (.inr (.inr (.inr ⟨rfl, rfl⟩)))))

end Sys2Proof.Machine
end

