-- ==== Sys2Proof/Laws/Codec.lean ====
section
/-! SUPPORT. The lemmas of the datapath: the table's bounds, the selection scan, and the bits of packed words and slots. -/

namespace Sys2Proof.Machine

/-- No selector has 0 slots (R19). -/
theorem one_le_slotCount (k : Tag) : 1 ≤ (lookup k).slotCount := by revert k; decide

/-- A slot count fits the 8 bits of CONSUMED and PRODUCED. -/
theorem slotCount_lt (k : Tag) : (lookup k).slotCount < 256 := by revert k; decide

/-- No field is wider than the payload. -/
theorem bitWidth_le (k : Tag) : (lookup k).bitWidth ≤ 60 := by revert k; decide

/-- The zero-width selectors are 0 and 1. -/
theorem bitWidth_eq_zero : ∀ k : Tag, (lookup k).bitWidth = 0 ↔ k < 2#4 := by decide

/-- The scan meets every selector. -/
theorem mem_scanOrder (k : Tag) : k ∈ scanOrder := by revert k; decide

/-- The scan meets a selector after all smaller ones. -/
theorem mem_scanOrder_take : ∀ k' k : Tag, k' < k → ∀ n < 16, scanOrder[n]? = some k → k' ∈ scanOrder.take n := by decide +kernel

/-- The selector chosen is eligible and no smaller one is (R84). -/
theorem select_some {vs : List Word} {k : Tag} (h : select vs = some k) : eligible k vs = true ∧ ∀ k' < k, eligible k' vs = false := by
    refine ⟨by simpa using List.find?_some h, fun k' hk' => ?_⟩
    unfold select at h
    rw [List.find?_eq_some_iff_append] at h
    obtain ⟨h1, as, bs, h2, h3⟩ := h
    have : k' ∈ as := by
      have hl : as.length < 16 := by
        have := congrArg List.length h2
        simp [scanOrder] at this; omega
      have := mem_scanOrder_take k' k hk' as.length hl (by rw [h2]; simp)
      rw [h2] at this; simpa using this
    simpa using h3 k' this

/-- Nothing is chosen exactly when no selector is eligible (R85). -/
theorem select_none {vs : List Word} : select vs = none ↔ ∀ k, eligible k vs = false := by
  unfold select
  rw [List.find?_eq_none]
  exact ⟨fun h k => by simpa using h k (mem_scanOrder k), fun h k _ => by simp [h k]⟩

/-- An eligible selector with no smaller one eligible is the one chosen (R84). -/
theorem select_eq {vs : List Word} {k : Tag} (h1 : eligible k vs = true) (h2 : ∀ k' < k, eligible k' vs = false) : select vs = some k := by
  cases h : select vs with
  | none => have := select_none.1 h k; simp [h1] at this
  | some k2 =>
    obtain ⟨h3, h4⟩ := select_some h
    rcases (by bv_omega : k2 < k ∨ k2 = k ∨ k < k2) with h | h | h
    · simp [h2 k2 h] at h3
    · rw [h]
    · simp [h4 k h] at h1

/-- The values that an eligible selector packs are n_k in number and fit (R82). -/
theorem packed_fits {k : Tag} {vs : List Word} (h : eligible k vs = true) (hb : (lookup k).bitWidth ≠ 0) :
   (vs.take (lookup k).slotCount).length = (lookup k).slotCount ∧ ∀ v ∈ vs.take (lookup k).slotCount, v.toNat ≤ 2 ^ (lookup k).bitWidth - 1 := by
  simp only [eligible, testedValues, hb, if_false, Bool.and_eq_true, List.all_eq_true, decide_eq_true_eq] at h
  refine ⟨by simp [h.1], fun v hv => ?_⟩
  have := h.2 v hv
  rw [fits, if_neg hb] at this
  exact of_decide_eq_true this

/-- A value of at most `b` bits has no bit at or above `b`. -/
theorem getLsbD_of_le_mask {v : Word} {b q : Nat} (h : v.toNat ≤ 2 ^ b - 1) (hq : b ≤ q) : v.getLsbD q = false := by
  have h0 : 0 < 2 ^ b := by positivity
  have h1 : v.toNat < 2 ^ q := lt_of_lt_of_le (by omega) (Nat.pow_le_pow_right (by norm_num) hq)
  simpa [BitVec.getLsbD] using Nat.testBit_lt_two_pow h1

/-- The bits of values packed from slot `i` on: bit p is bit p mod b of slot p / b (R57). -/
theorem getLsbD_fieldBits {b : Nat} (hb : 0 < b) (i : Nat) (vs : List Word) (hm : (i + vs.length) * b ≤ 64)
    (hf : ∀ v ∈ vs, v.toNat ≤ 2 ^ b - 1) (p : Nat) :
    (fieldBits b i vs).getLsbD p =
      if i ≤ p / b ∧ p / b < i + vs.length then (vs.getD (p / b - i) 0#64).getLsbD (p % b) else false := by
  induction vs generalizing i with
  | nil => simp [fieldBits]
  | cons v vs ih =>
    simp only [List.length_cons] at hm ⊢
    have ih' := ih (i + 1) (by rw [show i + 1 + vs.length = i + (vs.length + 1) by omega]; exact hm) (fun u hu => hf u (by simp [hu]))
    have hdm := Nat.div_add_mod p b
    have hml := Nat.mod_lt p hb
    have hlt : p / b < i + (vs.length + 1) → p < 64 := by
      intro h
      have := Nat.mul_le_mul_right b h
      rw [Nat.mul_comm] at hdm
      have e : (p / b).succ * b = p / b * b + b := Nat.succ_mul _ _
      omega
    simp only [fieldBits, BitVec.getLsbD_or, BitVec.getLsbD_shiftLeft, ih']
    rcases Nat.lt_trichotomy (p / b) i with h | h | h
    · have h1 : p < i * b := (Nat.div_lt_iff_lt_mul hb).1 h
      have h2 : ¬ i + 1 ≤ p / b := by omega
      have h3 : ¬ i ≤ p / b := by omega
      simp [h1, h2, h3]
    · have h1 : ¬ p < i * b := by rw [← h]; exact Nat.not_lt.2 (Nat.div_mul_le_self p b)
      have h2 : ¬ i + 1 ≤ p / b := by omega
      have h4 : p - i * b = p % b := by rw [← h, Nat.mod_eq_sub_div_mul]
      have h5 := hlt (by omega)
      simp [h1, h, h4, h5]
    · have h5 : b ≤ p - i * b := by
        have := (Nat.le_div_iff_mul_le hb).1 h
        have e : i.succ * b = i * b + b := Nat.succ_mul _ _
        omega
      have h6 : i ≤ p / b := by omega
      obtain ⟨d, hd⟩ : ∃ d, p / b - i = d + 1 := ⟨p/b - i - 1, by omega⟩
      have hd2 : p / b - (i+1) = d := by omega
      rw [getLsbD_of_le_mask (hf v (by simp)) h5, hd, hd2]
      have e : i + 1 + vs.length = i + (vs.length + 1) := by omega
      have h7 : i + 1 ≤ p / b := h
      simp [h6, h7, e]

/-- An OR over a list may start anywhere. -/
theorem foldl_or (l : List Word) (a : Word) : l.foldl (· ||| ·) a = a ||| l.foldl (· ||| ·) 0#64 := by
  induction l generalizing a with
  | nil => simp
  | cons x l ih => simp only [List.foldl_cons]; rw [ih, ih (0#64 ||| x)]; simp [BitVec.or_assoc]

/-- The packed fields as one OR over the slots (R57). -/
theorem fieldBits_eq (b i : Nat) (vs : List Word) : fieldBits b i vs =
   ((List.range vs.length).map (fun j => (vs.getD j 0#64) <<< ((i + j) * b))).foldl (· ||| ·) 0#64 := by
  induction vs generalizing i with
  | nil => simp [fieldBits]
  | cons v vs ih =>
    simp only [fieldBits, ih, List.length_cons, List.range_succ_eq_map, List.map_cons, List.foldl_cons, List.map_map]
    conv => rhs; rw [foldl_or]
    simp [Function.comp_def, Nat.add_assoc, Nat.add_comm 1]

/-- The fields of the first `n` values as the OR that the PACK.k rules write. -/
theorem fieldBits_take (b n : Nat) (vs : List Word) (h : n ≤ vs.length) :
   fieldBits b 0 (vs.take n) = orOver n (fun j => (vs.getD j 0#64) <<< (j * b)) := by
  rw [fieldBits_eq, orOver]
  simp only [List.length_take, Nat.min_eq_left h, Nat.zero_add]
  congr 1
  apply List.map_congr_left
  intro j hj
  have : j < n := by simpa using hj
  simp [List.getD, this]

/-- The bits of a slot value are those of its field (R56). -/
theorem getLsbD_slotValue {b : Nat} (hb : b ≠ 0) (hb2 : b ≤ 60) (i : Nat) (w : Word) (q : Nat) :
   (slotValue b i w).getLsbD q = (decide (q < b) && w.getLsbD (i * b + q)) := by
  simp only [slotValue, if_neg hb, BitVec.getLsbD_and, BitVec.getLsbD_ushiftRight, mask]
  have : (BitVec.ofNat 64 (2 ^ b - 1)).getLsbD q = decide (q < b) := by
    rw [BitVec.getLsbD_ofNat, Nat.testBit_two_pow_sub_one]
    by_cases h : q < b
    · have : q < 64 := by omega
      simp [h, this]
    · simp [h]
  rw [this, Bool.and_comm]

/-- What ENCODE answers when it is given at least one value: the word of the selector chosen, or OutOfRange (R84, R85). -/
theorem execEncode_of_inputs {s : State} {vs : List Word} (hi : Inputs s vs) (hne : vs ≠ []) :
    execEncode s =
      match select vs with
      | some k => .next (encodeDone (packWord k vs) (BitVec.ofNat 8 (lookup k).slotCount) s)
      | none => .next (encodeRaised s) := by
  simp only [execEncode, encodeInput_of_inputs hi]
  rcases vs with _ | ⟨v, vs⟩
  · exact absurd rfl hne
  · dsimp only
    cases select (v :: vs) <;> rfl

end Sys2Proof.Machine
end

