-- ==== Sys2Proof/Laws/PerInstr.lean ====
section
/-! SUPPORT. The family TableRow: every instruction is well formed, and its encoding matches its row of
spec/opcode_table.json. -/

namespace Sys2Proof.Laws

/-- The bits of an encoding, as the table's mask and match see them. -/
def encodingBits : Encoding → Word
  | .command op => op.setWidth 64
  | .inputWord w => w
  | .outputWord w => w

/-- The columns "mask" and "match" of each row of spec/opcode_table.json. -/
def tableRow : Instr → Word × Word
  | .encode => (0x1#64, 0x0#64)
  | .decode => (0x1#64, 0x1#64)
  | .pack0 => (0xF000000000000000#64, 0x0000000000000000#64)
  | .pack1 => (0xF000000000000000#64, 0x1000000000000000#64)
  | .pack2 => (0xF000000000000000#64, 0x2000000000000000#64)
  | .pack3 => (0xF000000000000000#64, 0x3000000000000000#64)
  | .pack4 => (0xF000000000000000#64, 0x4000000000000000#64)
  | .pack5 => (0xF000000000000000#64, 0x5000000000000000#64)
  | .pack6 => (0xF000000000000000#64, 0x6000000000000000#64)
  | .pack7 => (0xF000000000000000#64, 0x7000000000000000#64)
  | .pack8 => (0xF000000000000000#64, 0x8000000000000000#64)
  | .pack9 => (0xF000000000000000#64, 0x9000000000000000#64)
  | .pack10 => (0xF000000000000000#64, 0xA000000000000000#64)
  | .pack11 => (0xF000000000000000#64, 0xB000000000000000#64)
  | .pack12 => (0xF000000000000000#64, 0xC000000000000000#64)
  | .pack13 => (0xF000000000000000#64, 0xD000000000000000#64)
  | .pack14 => (0xF000000000000000#64, 0xE000000000000000#64)
  | .pack15 => (0xF000000000000000#64, 0xF000000000000000#64)
  | .unpack0 _ => (0xF000000000000000#64, 0x0000000000000000#64)
  | .unpack1 _ => (0xF000000000000000#64, 0x1000000000000000#64)
  | .unpack2 _ => (0xF000000000000000#64, 0x2000000000000000#64)
  | .unpack3 _ => (0xF000000000000000#64, 0x3000000000000000#64)
  | .unpack4 _ => (0xF000000000000000#64, 0x4000000000000000#64)
  | .unpack5 _ => (0xF000000000000000#64, 0x5000000000000000#64)
  | .unpack6 _ => (0xF000000000000000#64, 0x6000000000000000#64)
  | .unpack7 _ => (0xF000000000000000#64, 0x7000000000000000#64)
  | .unpack8 _ => (0xF000000000000000#64, 0x8000000000000000#64)
  | .unpack9 _ => (0xF000000000000000#64, 0x9000000000000000#64)
  | .unpack10 _ => (0xF000000000000000#64, 0xA000000000000000#64)
  | .unpack11 _ => (0xF000000000000000#64, 0xB000000000000000#64)
  | .unpack12 _ => (0xF000000000000000#64, 0xC000000000000000#64)
  | .unpack13 _ => (0xF000000000000000#64, 0xD000000000000000#64)
  | .unpack14 _ => (0xF000000000000000#64, 0xE000000000000000#64)
  | .unpack15 _ => (0xF000000000000000#64, 0xF000000000000000#64)

/-- The encoding of `i` matches its row, and `i` is well formed. -/
def TableRow.Statement (i : Instr) : Prop :=
  i.wellFormed = true ∧ encodingBits (encodeInstr i) &&& (tableRow i).1 = (tableRow i).2

/-- A payload does not reach the tag. -/
theorem setWidth_and_tagMask (p : Payload) : p.setWidth 64 &&& 0xF000000000000000#64 = 0#64 := by
  apply BitVec.eq_of_getLsbD_eq
  intro i hi
  by_cases h : i < 60
  · have : (0xF000000000000000#64).getLsbD i = false := by
      revert i; decide
    simp only [BitVec.getLsbD_and, this, Bool.and_false, BitVec.getLsbD_zero]
  · have : (p.setWidth 64).getLsbD i = false := by
      rw [BitVec.getLsbD_setWidth, BitVec.getLsbD_of_ge p i (by omega), Bool.and_false]
    simp only [BitVec.getLsbD_and, this, Bool.false_and, BitVec.getLsbD_zero]

/-- Masking a word with the tag's bits leaves the tag. -/
theorem mkWord_and_tagMask (k : Tag) (p : Payload) :
    mkWord k p &&& 0xF000000000000000#64 = tagBits k &&& 0xF000000000000000#64 := by
  have h : mkWord k p &&& 0xF000000000000000#64 =
      (tagBits k &&& 0xF000000000000000#64) ||| (p.setWidth 64 &&& 0xF000000000000000#64) := by
    apply BitVec.eq_of_getLsbD_eq
    intro i _
    simp only [mkWord, BitVec.getLsbD_and, BitVec.getLsbD_or, Bool.and_or_distrib_right]
  rw [h, setWidth_and_tagMask, BitVec.or_zero]

theorem TableRow.encode : TableRow.Statement .encode := ⟨rfl, by decide⟩
theorem TableRow.decode : TableRow.Statement .decode := ⟨rfl, by decide⟩
theorem TableRow.pack0 : TableRow.Statement .pack0 := ⟨rfl, by decide⟩
theorem TableRow.pack1 : TableRow.Statement .pack1 := ⟨rfl, by decide⟩
theorem TableRow.pack2 : TableRow.Statement .pack2 := ⟨rfl, by decide⟩
theorem TableRow.pack3 : TableRow.Statement .pack3 := ⟨rfl, by decide⟩
theorem TableRow.pack4 : TableRow.Statement .pack4 := ⟨rfl, by decide⟩
theorem TableRow.pack5 : TableRow.Statement .pack5 := ⟨rfl, by decide⟩
theorem TableRow.pack6 : TableRow.Statement .pack6 := ⟨rfl, by decide⟩
theorem TableRow.pack7 : TableRow.Statement .pack7 := ⟨rfl, by decide⟩
theorem TableRow.pack8 : TableRow.Statement .pack8 := ⟨rfl, by decide⟩
theorem TableRow.pack9 : TableRow.Statement .pack9 := ⟨rfl, by decide⟩
theorem TableRow.pack10 : TableRow.Statement .pack10 := ⟨rfl, by decide⟩
theorem TableRow.pack11 : TableRow.Statement .pack11 := ⟨rfl, by decide⟩
theorem TableRow.pack12 : TableRow.Statement .pack12 := ⟨rfl, by decide⟩
theorem TableRow.pack13 : TableRow.Statement .pack13 := ⟨rfl, by decide⟩
theorem TableRow.pack14 : TableRow.Statement .pack14 := ⟨rfl, by decide⟩
theorem TableRow.pack15 : TableRow.Statement .pack15 := ⟨rfl, by decide⟩
theorem TableRow.unpack0 (p : Payload) : TableRow.Statement (.unpack0 p) :=
  ⟨rfl, (mkWord_and_tagMask 0#4 p).trans rfl⟩
theorem TableRow.unpack1 (p : Payload) : TableRow.Statement (.unpack1 p) :=
  ⟨rfl, (mkWord_and_tagMask 1#4 p).trans rfl⟩
theorem TableRow.unpack2 (p : Payload) : TableRow.Statement (.unpack2 p) :=
  ⟨rfl, (mkWord_and_tagMask 2#4 p).trans rfl⟩
theorem TableRow.unpack3 (p : Payload) : TableRow.Statement (.unpack3 p) :=
  ⟨rfl, (mkWord_and_tagMask 3#4 p).trans rfl⟩
theorem TableRow.unpack4 (p : Payload) : TableRow.Statement (.unpack4 p) :=
  ⟨rfl, (mkWord_and_tagMask 4#4 p).trans rfl⟩
theorem TableRow.unpack5 (p : Payload) : TableRow.Statement (.unpack5 p) :=
  ⟨rfl, (mkWord_and_tagMask 5#4 p).trans rfl⟩
theorem TableRow.unpack6 (p : Payload) : TableRow.Statement (.unpack6 p) :=
  ⟨rfl, (mkWord_and_tagMask 6#4 p).trans rfl⟩
theorem TableRow.unpack7 (p : Payload) : TableRow.Statement (.unpack7 p) :=
  ⟨rfl, (mkWord_and_tagMask 7#4 p).trans rfl⟩
theorem TableRow.unpack8 (p : Payload) : TableRow.Statement (.unpack8 p) :=
  ⟨rfl, (mkWord_and_tagMask 8#4 p).trans rfl⟩
theorem TableRow.unpack9 (p : Payload) : TableRow.Statement (.unpack9 p) :=
  ⟨rfl, (mkWord_and_tagMask 9#4 p).trans rfl⟩
theorem TableRow.unpack10 (p : Payload) : TableRow.Statement (.unpack10 p) :=
  ⟨rfl, (mkWord_and_tagMask 10#4 p).trans rfl⟩
theorem TableRow.unpack11 (p : Payload) : TableRow.Statement (.unpack11 p) :=
  ⟨rfl, (mkWord_and_tagMask 11#4 p).trans rfl⟩
theorem TableRow.unpack12 (p : Payload) : TableRow.Statement (.unpack12 p) :=
  ⟨rfl, (mkWord_and_tagMask 12#4 p).trans rfl⟩
theorem TableRow.unpack13 (p : Payload) : TableRow.Statement (.unpack13 p) :=
  ⟨rfl, (mkWord_and_tagMask 13#4 p).trans rfl⟩
theorem TableRow.unpack14 (p : Payload) : TableRow.Statement (.unpack14 p) :=
  ⟨rfl, (mkWord_and_tagMask 14#4 p).trans rfl⟩
theorem TableRow.unpack15 (p : Payload) : TableRow.Statement (.unpack15 p) :=
  ⟨rfl, (mkWord_and_tagMask 15#4 p).trans rfl⟩

end Sys2Proof.Laws
end

