-- ==== Sys2Proof/Tests/Slice0.lean ====
section
/-! SUPPORT. Tests: the encodings written out from spec/30_encoding.md, the worked examples of spec/41_encode.md and
spec/42_decode.md, the vectors of spec/95_test_vectors.md, and a witness for every statement that has hypotheses. -/

namespace Sys2Proof.Tests

-- One theorem at a time: many small kernel checks at once would each hold a thread.
set_option Elab.async false

open Sys2Proof.Machine

/-! ### Well-formedness -/

/-- R64: an ENCODE that announces three values and lists two. -/
theorem test_encode_command_with_too_few_values_is_ill_formed :
    (Command.encode 3#64 [1#64, 2#64]).wellFormed = false := by decide

theorem test_encode_command_is_well_formed : (Command.encode 2#64 [1#64, 2#64]).wellFormed = true := by decide

/-! ### Decoding: each constructor from a word written out field by field (formats CMD and S0 to S15 of R53, R62) -/

theorem test_decode_command_codes : decodeTableWord 8 0b0 = some .encode ∧ decodeTableWord 8 0b1 = some .decode := by decide

theorem test_command_code_two_is_rejected : decodeRaw 8 2 = .error .noSuchCommand := rfl

theorem test_word_of_65_bits_is_rejected : decodeRaw 64 (2 ^ 64) = .error .wordTooWide := rfl

theorem test_length_32_is_rejected : decodeRaw 32 0 = .error .noSuchLength := rfl

theorem test_decode_format_S0 :
    decodeTableWord 64 (0 * 2 ^ 60) = some (.unpack0 0x0#60) ∧
    decodeInstr (.outputWord 0x0000000000000000#64) = .pack0 := by decide

theorem test_decode_format_S1 :
    decodeTableWord 64 (1 * 2 ^ 60) = some (.unpack1 0x0#60) ∧
    decodeInstr (.outputWord 0x1000000000000000#64) = .pack1 := by decide

theorem test_decode_format_S2 :
    decodeTableWord 64 (2 * 2 ^ 60 + 1 * 2 ^ 0 + 1 * 2 ^ 2 + 1 * 2 ^ 4 + 1 * 2 ^ 6 + 1 * 2 ^ 8 + 1 * 2 ^ 10 + 1 * 2 ^ 12 + 1 * 2 ^ 14) = some (.unpack2 0x5555#60) ∧
    decodeInstr (.outputWord 0x2555555555555555#64) = .pack2 := by decide

theorem test_decode_format_S3 :
    decodeTableWord 64 (3 * 2 ^ 60 + 1 * 2 ^ 0 + 2 * 2 ^ 2 + 3 * 2 ^ 4 + 1 * 2 ^ 8 + 2 * 2 ^ 10 + 3 * 2 ^ 12 + 1 * 2 ^ 16 + 2 * 2 ^ 18) = some (.unpack3 0x93939#60) ∧
    decodeInstr (.outputWord 0x3939393939393939#64) = .pack3 := by decide

theorem test_decode_format_S4 :
    decodeTableWord 64 (4 * 2 ^ 60 + 1 * 2 ^ 0 + 2 * 2 ^ 3 + 3 * 2 ^ 6 + 4 * 2 ^ 9 + 5 * 2 ^ 12 + 6 * 2 ^ 15 + 7 * 2 ^ 18 + 1 * 2 ^ 24) = some (.unpack4 0x11f58d1#60) ∧
    decodeInstr (.outputWord 0x48D11F58D11F58D1#64) = .pack4 := by decide

theorem test_decode_format_S5 :
    decodeTableWord 64 (5 * 2 ^ 60 + 1 * 2 ^ 0 + 2 * 2 ^ 4 + 3 * 2 ^ 8 + 4 * 2 ^ 12 + 5 * 2 ^ 16 + 6 * 2 ^ 20 + 7 * 2 ^ 24 + 8 * 2 ^ 28) = some (.unpack5 0x87654321#60) ∧
    decodeInstr (.outputWord 0x5FEDCBA987654321#64) = .pack5 := by decide

theorem test_decode_format_S6 :
    decodeTableWord 64 (6 * 2 ^ 60 + 1 * 2 ^ 0 + 2 * 2 ^ 5 + 3 * 2 ^ 10 + 4 * 2 ^ 15 + 5 * 2 ^ 20 + 6 * 2 ^ 25 + 7 * 2 ^ 30 + 8 * 2 ^ 35) = some (.unpack6 0x41cc520c41#60) ∧
    decodeInstr (.outputWord 0x662D4941CC520C41#64) = .pack6 := by decide

theorem test_decode_format_S7 :
    decodeTableWord 64 (7 * 2 ^ 60 + 1 * 2 ^ 0 + 2 * 2 ^ 6 + 3 * 2 ^ 12 + 4 * 2 ^ 18 + 5 * 2 ^ 24 + 6 * 2 ^ 30 + 7 * 2 ^ 36 + 8 * 2 ^ 42) = some (.unpack7 0x207185103081#60) ∧
    decodeInstr (.outputWord 0x7289207185103081#64) = .pack7 := by decide

theorem test_decode_format_S8 :
    decodeTableWord 64 (8 * 2 ^ 60 + 1 * 2 ^ 0 + 2 * 2 ^ 7 + 3 * 2 ^ 14 + 4 * 2 ^ 21 + 5 * 2 ^ 28 + 6 * 2 ^ 35 + 7 * 2 ^ 42 + 8 * 2 ^ 49) = some (.unpack8 0x101c305080c101#60) ∧
    decodeInstr (.outputWord 0x80101C305080C101#64) = .pack8 := by decide

theorem test_decode_format_S9 :
    decodeTableWord 64 (9 * 2 ^ 60 + 1 * 2 ^ 0 + 2 * 2 ^ 8 + 3 * 2 ^ 16 + 4 * 2 ^ 24 + 5 * 2 ^ 32 + 6 * 2 ^ 40 + 7 * 2 ^ 48) = some (.unpack9 0x7060504030201#60) ∧
    decodeInstr (.outputWord 0x9007060504030201#64) = .pack9 := by decide

theorem test_decode_format_S10 :
    decodeTableWord 64 (10 * 2 ^ 60 + 1 * 2 ^ 0 + 2 * 2 ^ 10 + 3 * 2 ^ 20 + 4 * 2 ^ 30 + 5 * 2 ^ 40 + 6 * 2 ^ 50) = some (.unpack10 0x18050100300801#60) ∧
    decodeInstr (.outputWord 0xA018050100300801#64) = .pack10 := by decide

theorem test_decode_format_S11 :
    decodeTableWord 64 (11 * 2 ^ 60 + 1 * 2 ^ 0 + 2 * 2 ^ 12 + 3 * 2 ^ 24 + 4 * 2 ^ 36 + 5 * 2 ^ 48) = some (.unpack11 0x5004003002001#60) ∧
    decodeInstr (.outputWord 0xB005004003002001#64) = .pack11 := by decide

theorem test_decode_format_S12 :
    decodeTableWord 64 (12 * 2 ^ 60 + 1 * 2 ^ 0 + 2 * 2 ^ 15 + 3 * 2 ^ 30 + 4 * 2 ^ 45) = some (.unpack12 0x8000c0010001#60) ∧
    decodeInstr (.outputWord 0xC0008000C0010001#64) = .pack12 := by decide

theorem test_decode_format_S13 :
    decodeTableWord 64 (13 * 2 ^ 60 + 1 * 2 ^ 0 + 2 * 2 ^ 20 + 3 * 2 ^ 40) = some (.unpack13 0x30000200001#60) ∧
    decodeInstr (.outputWord 0xD000030000200001#64) = .pack13 := by decide

theorem test_decode_format_S14 :
    decodeTableWord 64 (14 * 2 ^ 60 + 1 * 2 ^ 0 + 2 * 2 ^ 30) = some (.unpack14 0x80000001#60) ∧
    decodeInstr (.outputWord 0xE000000080000001#64) = .pack14 := by decide

theorem test_decode_format_S15 :
    decodeTableWord 64 (15 * 2 ^ 60 + 1 * 2 ^ 0) = some (.unpack15 0x1#60) ∧
    decodeInstr (.outputWord 0xF000000000000001#64) = .pack15 := by decide

/-! ### One step of each instruction -/

/-- The engine after the host placed an ENCODE of these values. -/
def given (vs : List Word) : State := placeCommand (.encode (BitVec.ofNat 64 vs.length) vs) State.reset

/-- The engine after the host placed a DECODE of this word. -/
def givenWord (w : Word) : State := placeCommand (.decode w) State.reset

/-- WOUT, CONSUMED, PRODUCED and STATUS after an operation that completes. -/
def results (a : Answer State) : Option (Reg 64 × Reg 8 × Reg 8 × Reg 1) :=
  (Answer.result? a).map (fun t => (t.wout, t.consumed, t.produced, t.status))

/-- PRODUCED and what the host reads as decoded values after an operation that completes. -/
def decoded (a : Answer State) : Option (Reg 8 × Option (List Word)) :=
  (Answer.result? a).map (fun t => (t.produced, decodedValues t))

/-- Example of R90. -/
theorem test_pack0 : results (exec .pack0 (given (List.replicate 240 1))) =
    some (.written 0x0000000000000000#64, .written 240#8, .unwritten, .written 0#1) := by decide +kernel

/-- Example of R120. -/
theorem test_unpack0 : decoded (exec (.unpack0 0x000000000000000#60) State.reset) =
    some (.written 240#8, some (List.replicate 240 1)) := by decide +kernel

/-- Example of R91. -/
theorem test_pack1 : results (exec .pack1 (given (List.replicate 120 1))) =
    some (.written 0x1000000000000000#64, .written 120#8, .unwritten, .written 0#1) := by decide +kernel

/-- Example of R121. -/
theorem test_unpack1 : decoded (exec (.unpack1 0x000000000000000#60) State.reset) =
    some (.written 120#8, some (List.replicate 120 1)) := by decide +kernel

/-- Example of R92. -/
theorem test_pack2 : results (exec .pack2 (given ([1, 0, 1, 0, 1, 0, 1, 0, 1, 0, 1, 0, 1, 0, 1, 0, 1, 0, 1, 0, 1, 0, 1, 0, 1, 0, 1, 0, 1, 0, 1, 0, 1, 0, 1, 0, 1, 0, 1, 0, 1, 0, 1, 0, 1, 0, 1, 0, 1, 0, 1, 0, 1, 0, 1, 0, 1, 0, 1, 0]))) =
    some (.written 0x2555555555555555#64, .written 60#8, .unwritten, .written 0#1) := by decide +kernel

/-- Example of R122. -/
theorem test_unpack2 : decoded (exec (.unpack2 0x555555555555555#60) State.reset) =
    some (.written 60#8, some ([1, 0, 1, 0, 1, 0, 1, 0, 1, 0, 1, 0, 1, 0, 1, 0, 1, 0, 1, 0, 1, 0, 1, 0, 1, 0, 1, 0, 1, 0, 1, 0, 1, 0, 1, 0, 1, 0, 1, 0, 1, 0, 1, 0, 1, 0, 1, 0, 1, 0, 1, 0, 1, 0, 1, 0, 1, 0, 1, 0])) := by decide +kernel

/-- Example of R93. -/
theorem test_pack3 : results (exec .pack3 (given ([1, 2, 3, 0, 1, 2, 3, 0, 1, 2, 3, 0, 1, 2, 3, 0, 1, 2, 3, 0, 1, 2, 3, 0, 1, 2, 3, 0, 1, 2]))) =
    some (.written 0x3939393939393939#64, .written 30#8, .unwritten, .written 0#1) := by decide +kernel

/-- Example of R123. -/
theorem test_unpack3 : decoded (exec (.unpack3 0x939393939393939#60) State.reset) =
    some (.written 30#8, some ([1, 2, 3, 0, 1, 2, 3, 0, 1, 2, 3, 0, 1, 2, 3, 0, 1, 2, 3, 0, 1, 2, 3, 0, 1, 2, 3, 0, 1, 2])) := by decide +kernel

/-- Example of R94. -/
theorem test_pack4 : results (exec .pack4 (given ([1, 2, 3, 4, 5, 6, 7, 0, 1, 2, 3, 4, 5, 6, 7, 0, 1, 2, 3, 4]))) =
    some (.written 0x48D11F58D11F58D1#64, .written 20#8, .unwritten, .written 0#1) := by decide +kernel

/-- Example of R124. -/
theorem test_unpack4 : decoded (exec (.unpack4 0x8D11F58D11F58D1#60) State.reset) =
    some (.written 20#8, some ([1, 2, 3, 4, 5, 6, 7, 0, 1, 2, 3, 4, 5, 6, 7, 0, 1, 2, 3, 4])) := by decide +kernel

/-- Example of R95. -/
theorem test_pack5 : results (exec .pack5 (given ([1, 2, 3, 4, 5, 6, 7, 8, 9, 10, 11, 12, 13, 14, 15]))) =
    some (.written 0x5FEDCBA987654321#64, .written 15#8, .unwritten, .written 0#1) := by decide +kernel

/-- Example of R125. -/
theorem test_unpack5 : decoded (exec (.unpack5 0xFEDCBA987654321#60) State.reset) =
    some (.written 15#8, some ([1, 2, 3, 4, 5, 6, 7, 8, 9, 10, 11, 12, 13, 14, 15])) := by decide +kernel

/-- Example of R96. -/
theorem test_pack6 : results (exec .pack6 (given ([1, 2, 3, 4, 5, 6, 7, 8, 9, 10, 11, 12]))) =
    some (.written 0x662D4941CC520C41#64, .written 12#8, .unwritten, .written 0#1) := by decide +kernel

/-- Example of R126. -/
theorem test_unpack6 : decoded (exec (.unpack6 0x62D4941CC520C41#60) State.reset) =
    some (.written 12#8, some ([1, 2, 3, 4, 5, 6, 7, 8, 9, 10, 11, 12])) := by decide +kernel

/-- Example of R97. -/
theorem test_pack7 : results (exec .pack7 (given ([1, 2, 3, 4, 5, 6, 7, 8, 9, 10]))) =
    some (.written 0x7289207185103081#64, .written 10#8, .unwritten, .written 0#1) := by decide +kernel

/-- Example of R127. -/
theorem test_unpack7 : decoded (exec (.unpack7 0x289207185103081#60) State.reset) =
    some (.written 10#8, some ([1, 2, 3, 4, 5, 6, 7, 8, 9, 10])) := by decide +kernel

/-- Example of R98. -/
theorem test_pack8 : results (exec .pack8 (given ([1, 2, 3, 4, 5, 6, 7, 8]))) =
    some (.written 0x80101C305080C101#64, .written 8#8, .unwritten, .written 0#1) := by decide +kernel

/-- Example of R128. -/
theorem test_unpack8 : decoded (exec (.unpack8 0x0101C305080C101#60) State.reset) =
    some (.written 8#8, some ([1, 2, 3, 4, 5, 6, 7, 8])) := by decide +kernel

/-- Example of R99. -/
theorem test_pack9 : results (exec .pack9 (given ([1, 2, 3, 4, 5, 6, 7]))) =
    some (.written 0x9007060504030201#64, .written 7#8, .unwritten, .written 0#1) := by decide +kernel

/-- Example of R129. -/
theorem test_unpack9 : decoded (exec (.unpack9 0x007060504030201#60) State.reset) =
    some (.written 7#8, some ([1, 2, 3, 4, 5, 6, 7])) := by decide +kernel

/-- Example of R100. -/
theorem test_pack10 : results (exec .pack10 (given ([1, 2, 3, 4, 5, 6]))) =
    some (.written 0xA018050100300801#64, .written 6#8, .unwritten, .written 0#1) := by decide +kernel

/-- Example of R130. -/
theorem test_unpack10 : decoded (exec (.unpack10 0x018050100300801#60) State.reset) =
    some (.written 6#8, some ([1, 2, 3, 4, 5, 6])) := by decide +kernel

/-- Example of R101. -/
theorem test_pack11 : results (exec .pack11 (given ([1, 2, 3, 4, 5]))) =
    some (.written 0xB005004003002001#64, .written 5#8, .unwritten, .written 0#1) := by decide +kernel

/-- Example of R131. -/
theorem test_unpack11 : decoded (exec (.unpack11 0x005004003002001#60) State.reset) =
    some (.written 5#8, some ([1, 2, 3, 4, 5])) := by decide +kernel

/-- Example of R102. -/
theorem test_pack12 : results (exec .pack12 (given ([1, 2, 3, 4]))) =
    some (.written 0xC0008000C0010001#64, .written 4#8, .unwritten, .written 0#1) := by decide +kernel

/-- Example of R132. -/
theorem test_unpack12 : decoded (exec (.unpack12 0x0008000C0010001#60) State.reset) =
    some (.written 4#8, some ([1, 2, 3, 4])) := by decide +kernel

/-- Example of R103. -/
theorem test_pack13 : results (exec .pack13 (given ([1, 2, 3]))) =
    some (.written 0xD000030000200001#64, .written 3#8, .unwritten, .written 0#1) := by decide +kernel

/-- Example of R133. -/
theorem test_unpack13 : decoded (exec (.unpack13 0x000030000200001#60) State.reset) =
    some (.written 3#8, some ([1, 2, 3])) := by decide +kernel

/-- Example of R104. -/
theorem test_pack14 : results (exec .pack14 (given ([1, 2]))) =
    some (.written 0xE000000080000001#64, .written 2#8, .unwritten, .written 0#1) := by decide +kernel

/-- Example of R134. -/
theorem test_unpack14 : decoded (exec (.unpack14 0x000000080000001#60) State.reset) =
    some (.written 2#8, some ([1, 2])) := by decide +kernel

/-- Example of R105. -/
theorem test_pack15 : results (exec .pack15 (given ([1]))) =
    some (.written 0xF000000000000001#64, .written 1#8, .unwritten, .written 0#1) := by decide +kernel

/-- Example of R135. -/
theorem test_unpack15 : decoded (exec (.unpack15 0x000000000000001#60) State.reset) =
    some (.written 1#8, some ([1])) := by decide +kernel

/-- 95_test_vectors.md 1.1, scenario 1. -/
theorem test_encode_ten_values : results (step (given [1, 2, 3, 4, 5, 6, 7, 8, 9, 10])) =
    some (.written 0x7289207185103081#64, .written 10#8, .unwritten, .written 0#1) := by decide +kernel

/-- 95_test_vectors.md 2.5: 2^60 first, small values after it: OutOfRange. -/
theorem test_encode_out_of_range : results (step (given [0x1000000000000000, 1, 1])) =
    some (.unwritten, .unwritten, .unwritten, .written 1#1) := by decide +kernel

/-- 95_test_vectors.md 2.2: unused bits 59 and 57 set under tag 9 do not reach an output. -/
theorem test_decode_ignores_unused_bits : decoded (step (givenWord 0x9A00000000000001)) =
    some (.written 7#8, some [1, 0, 0, 0, 0, 0, 0]) := by decide +kernel

/-- 95_test_vectors.md 2.2: a patterned word of tag 13. -/
theorem test_decode_patterned_word : decoded (step (givenWord 0xD123456789ABCDEF)) =
    some (.written 3#8, some [773615, 424090, 74565]) := by decide +kernel

/-! ### The step after reset -/

/-- R27: nothing has been written yet. -/
theorem test_step_from_reset_is_refused : step State.reset = .refused (.operandUnwritten .op) := rfl

/-- A placed ENCODE is the first command after reset; its operand word is zeros (R147). -/
theorem test_placed_encode_runs : results (step (State.reset.withFetchWord 8 0)) =
    some (.written 0#64, .written 0#8, .unwritten, .written 0#1) := by decide +kernel

/-- A placed word runs as the UNPACK.k it decodes to. -/
theorem test_placed_word_runs : decoded (step (State.reset.withFetchWord 64 0xE000000080000001)) =
    some (.written 2#8, some [1, 2]) := by decide +kernel

/-! ### The loops of the host -/

/-- 95_test_vectors.md P3: a stream with 2^60 at index 1 ends there, after one word. -/
theorem test_encode_stream_stops_at_bad_value :
    (match encodeStream [5, 0x1000000000000000, 7] State.reset with
      | .outOfRange pos words _ => pos == 1 && words == [0xF000000000000005#64]
      | _ => false) = true := by decide +kernel

/-- 95_test_vectors.md P7: the second DECODE overwrites two entries and leaves three. -/
theorem test_second_decode_leaves_entries_above :
    (Answer.result? (exec (.unpack14 0x000000040000001#60)
      { State.reset with vout := Memory.ofList 0 [3567, 2748, 1929, 1110, 291] })).map (·.vout) =
    some (Memory.ofList 0 [1, 1, 1929, 1110, 291]) := by decide +kernel

/-! ### Witnesses: states and operands that meet the hypotheses of each statement, named after it -/

/-- The hypotheses on the values of an ENCODE are met by what the host places. -/
theorem inputs_given (vs : List Word) (h : vs.length < 2 ^ 64) : Inputs (given vs) vs := inputs_placed vs h State.reset

theorem witness_FitTestAndLeastSelector : fits 2#4 1#64 = true ∧ fits 2#4 2#64 = false ∧ fits 15#4 0x0FFFFFFFFFFFFFFF#64 = true ∧
    fits 15#4 0x1000000000000000#64 = false := by decide

theorem witness_SelectorTableInvariants : (1#4 ≤ 1#4 ∧ (1#4 : Tag) < 2#4 ∧ 2#4 ≤ (15#4 : Tag)) ∧
    tagOf 0x7000000000000000#64 = tagOf 0x7FFFFFFFFFFFFFFF#64 := by decide

theorem witness_DecodeOfEncodeIsIdentity : (Instr.unpack15 0xFFFFFFFFFFFFFFF#60).wellFormed = true := rfl

theorem witness_StepRunsTheDecodedInstruction : (given [1]).phase = .idle ∧ (given [1]).op = .written 0#1 ∧
    (givenWord 0xF000000000000001#64).phase = .idle ∧ (givenWord 0xF000000000000001#64).op = .written 1#1 ∧
    (givenWord 0xF000000000000001#64).win = .written 0xF000000000000001#64 := ⟨rfl, rfl, rfl, rfl, rfl⟩

theorem witness_StepCompletesExactlyWhenReady_encode : Memory.wf (given [1]).vin ∧ (given [1]).Ready ∧ (given [1]).Safe :=
  ⟨Memory.wf_ofList 0 [1], ⟨rfl, .inl ⟨rfl, [1], inputs_given [1] (by decide)⟩⟩, _, rfl⟩

theorem witness_StepCompletesExactlyWhenReady_decode : Memory.wf (givenWord 0#64).vin ∧ (givenWord 0#64).Ready ∧
    (givenWord 0#64).Safe := ⟨by decide, ⟨rfl, .inr ⟨rfl, 0#64, rfl⟩⟩, _, rfl⟩

theorem witness_StepRefusesUnpreparedCommand_busy :
    ({ State.reset with phase := .busy 0#1 } : State).phase ≠ .idle := by decide

theorem witness_StepRefusesUnpreparedCommand_op : State.reset.phase = .idle ∧ State.reset.op = .unwritten := ⟨rfl, rfl⟩

theorem witness_StepRefusesUnpreparedCommand_operands :
    ({ State.reset with op := .written 0#1 } : State).phase = .idle ∧
    ({ State.reset with op := .written 0#1 } : State).count = .unwritten ∧
    ({ State.reset with op := .written 1#1 } : State).win = .unwritten := ⟨rfl, rfl, rfl⟩

theorem witness_StepRefusesUnpreparedCommand_vin :
    ({ given [1] with count := .written 2#64 } : State).count = .written 2#64 ∧ 1 < (2#64).toNat ∧
    Memory.read ({ given [1] with count := .written 2#64 } : State).vin 1 = none := ⟨rfl, by decide, rfl⟩

theorem witness_StepFrame_encode : (∃ t, step (given [1]) = .next t) ∧ (given [1]).op = .written 0#1 := ⟨⟨_, rfl⟩, rfl⟩

theorem witness_StepFrame_decode : (∃ t, step (givenWord 0xF000000000000001#64) = .next t) ∧
    (givenWord 0xF000000000000001#64).op = .written 1#1 ∧
    (lookup (tagOf 0xF000000000000001#64)).slotCount ≤ 1 := ⟨⟨_, rfl⟩, rfl, by decide⟩

theorem witness_EligibilityRule : (lookup 15#4).bitWidth ≠ 0 ∧ (lookup 15#4).slotCount ≤ [1#64, 2#64].length ∧
    (lookup 15#4).slotCount ≤ [1#64].length ∧ [1#64, 2#64].take (lookup 15#4).slotCount = [1#64].take (lookup 15#4).slotCount := by
  decide

theorem witness_EmptyEncodeResult : (given []).count = .written 0#64 := rfl

theorem witness_EncodeWhole_empty : Inputs (given []) [] := inputs_given [] (by decide)

/-- The largest value goes to the last selector. -/
theorem witness_EncodeWhole_selects : Inputs (given [0x0FFFFFFFFFFFFFFF#64]) [0x0FFFFFFFFFFFFFFF#64] ∧
    SpecEligible 15#4 [0x0FFFFFFFFFFFFFFF#64] ∧ ∀ k' : Tag, k' < 15#4 → ¬ SpecEligible k' [0x0FFFFFFFFFFFFFFF#64] :=
  ⟨inputs_given _ (by decide), by decide, by decide⟩

theorem witness_EncodeWhole_raises : Inputs (given [0x1000000000000000#64]) [0x1000000000000000#64] ∧
    ∀ k : Tag, ¬ SpecEligible k [0x1000000000000000#64] := ⟨inputs_given _ (by decide), by decide⟩

theorem witness_NoEligibleSelectorRaises : Inputs (given [0x1000000000000000#64]) [0x1000000000000000#64] ∧
    2 ^ 60 ≤ (0x1000000000000000#64).toNat := ⟨inputs_given _ (by decide), by decide⟩

theorem witness_NoEligibleSelectorRaises_later : Inputs (given [5, 0x1000000000000000]) [5, 0x1000000000000000] ∧
    (5#64).toNat < 2 ^ 60 ∧ [5, 0x1000000000000000#64][1]? = some 0x1000000000000000#64 ∧
    2 ^ 60 ≤ (0x1000000000000000#64).toNat := ⟨inputs_given _ (by decide), by decide, rfl, by decide⟩

theorem witness_OutOfRangeRaisedExactlyWhen : Inputs (given [0x1000000000000000]) [0x1000000000000000] ∧
    (∃ t, exec .encode (given [0x1000000000000000]) = .next t) ∧
    (∃ t, exec .decode (givenWord 0) = .next t) := ⟨inputs_given _ (by decide), ⟨_, rfl⟩, ⟨_, rfl⟩⟩

theorem witness_EncodeEndsInOneOfEighteenWays : Inputs (given [7]) [7] := inputs_given _ (by decide)

theorem witness_SelectorMaximality : Inputs (given [1]) [1] ∧ [1#64] ≠ [] ∧
    ∃ t, exec .encode (given [1]) = .next t ∧ t.wout = .written 0xF000000000000001#64 ∧ tagOf 0xF000000000000001#64 = 15#4 :=
  ⟨inputs_given _ (by decide), by decide, _, rfl, by decide, by decide⟩

theorem witness_SelectionFacts : eligible 14#4 [1, 1] = true ∧ (14#4 : Tag) < 15#4 ∧ select [1, 1] = some 14#4 := by decide

theorem witness_SelectionFacts_allOnes : select (List.replicate 240 1#64) = some 0#4 ∧ select (List.replicate 239 1#64) = some 1#4 ∧
    select (List.replicate 120 1#64) = some 1#4 := by decide +kernel

theorem witness_SelectionFacts_notAllOnes : 60 ≤ (List.replicate 60 0#64).length ∧ ¬ AllOnes (List.replicate 60 0#64) ∧
    select (List.replicate 60 0#64) = some 2#4 :=
  ⟨by rw [List.length_replicate], fun h => absurd (h 0#64 (by simp)) (by decide), by decide +kernel⟩

theorem witness_DegenerateSelectorsNeedAllOnes : Inputs (given (List.replicate 240 1)) (List.replicate 240 1) ∧
    240 ≤ (List.replicate 240 1#64).length ∧ AllOnes (List.replicate 240 1#64) :=
  ⟨inputs_given _ (by simp only [List.length_replicate]; decide), by rw [List.length_replicate],
    fun _ h => List.eq_of_mem_replicate h⟩

theorem witness_DegenerateSelectorsNeedAllOnes_tag1 : Inputs (given (List.replicate 239 1)) (List.replicate 239 1) ∧
    AllOnes (List.replicate 239 1#64) ∧ Inputs (given (List.replicate 120 1)) (List.replicate 120 1) ∧
    AllOnes (List.replicate 120 1#64) :=
  ⟨inputs_given _ (by simp only [List.length_replicate]; decide), fun _ h => List.eq_of_mem_replicate h,
    inputs_given _ (by simp only [List.length_replicate]; decide), fun _ h => List.eq_of_mem_replicate h⟩

theorem witness_BoundaryBitWidths_full : 2#4 ≤ (15#4 : Tag) ∧
    Inputs (given (List.replicate (lookup 15#4).slotCount (BitVec.ofNat 64 (2 ^ (lookup 15#4).bitWidth - 1))))
      (List.replicate (lookup 15#4).slotCount (BitVec.ofNat 64 (2 ^ (lookup 15#4).bitWidth - 1))) :=
  ⟨by decide, inputs_given _ (by simp only [List.length_replicate]; decide)⟩

theorem witness_BoundaryBitWidths_raised : 0 < (lookup 2#4).slotCount ∧
    Inputs (given ((List.replicate (lookup 2#4).slotCount (BitVec.ofNat 64 (2 ^ (lookup 2#4).bitWidth - 1))).set 0
        (BitVec.ofNat 64 (2 ^ (lookup 2#4).bitWidth))))
      ((List.replicate (lookup 2#4).slotCount (BitVec.ofNat 64 (2 ^ (lookup 2#4).bitWidth - 1))).set 0
        (BitVec.ofNat 64 (2 ^ (lookup 2#4).bitWidth))) ∧
    0 < (lookup 15#4).slotCount ∧
    Inputs (given ((List.replicate (lookup 15#4).slotCount (BitVec.ofNat 64 (2 ^ (lookup 15#4).bitWidth - 1))).set 0
        (BitVec.ofNat 64 (2 ^ (lookup 15#4).bitWidth))))
      ((List.replicate (lookup 15#4).slotCount (BitVec.ofNat 64 (2 ^ (lookup 15#4).bitWidth - 1))).set 0
        (BitVec.ofNat 64 (2 ^ (lookup 15#4).bitWidth))) :=
  ⟨by decide, inputs_given _ (by simp only [List.length_set, List.length_replicate]; decide), by decide, inputs_given _ (by simp only [List.length_set, List.length_replicate]; decide)⟩

theorem witness_PackedWordIsSumOfFields : eligible 14#4 [0x3FFFFFFF, 0x3FFFFFFF] = true ∧ (lookup 14#4).bitWidth ≠ 0 := by decide

theorem witness_EntriesOfVinThatMatter_same : [1#64, 2].length = [1#64, 2].length ∧ [1#64, 2].take 60 = [1#64, 2].take 60 := by
  decide

theorem witness_EntriesOfVinThatMatter_long :
    120 ≤ (List.replicate 120 1#64 ++ [2]).length ∧
    (List.replicate 120 1#64 ++ [2]).take 60 = (List.replicate 120 1#64 ++ [3]).take 60 ∧
    (AllOnes (List.replicate 120 1#64 ++ [2]) ↔ AllOnes (List.replicate 120 1#64 ++ [3])) :=
  ⟨by simp, by decide +kernel, fun h => absurd (h 2 (by simp)) (by decide), fun h => absurd (h 3 (by simp)) (by decide)⟩

theorem witness_EntriesOfVinThatMatter_above : Inputs (given [1]) [1] ∧ [1#64].length ≤ 1 ∧
    ∃ t, exec .encode (given [1]) = .next t := ⟨inputs_given _ (by decide), by decide, _, rfl⟩

theorem witness_DecodeWritesItsSlots : (givenWord 0x0#64).win = .written 0x0#64 := rfl

theorem witness_DecodeEndsInOneOfSixteenWays : (givenWord 0xFFFFFFFFFFFFFFFF#64).win = .written 0xFFFFFFFFFFFFFFFF#64 := rfl

theorem witness_DecodedValuesInRange : (givenWord 0xFFFFFFFFFFFFFFFF#64).win = .written 0xFFFFFFFFFFFFFFFF#64 ∧
    (∃ t, exec .decode (givenWord 0xFFFFFFFFFFFFFFFF#64) = .next t) ∧
    0 < (lookup (tagOf 0xFFFFFFFFFFFFFFFF#64)).slotCount := ⟨rfl, ⟨_, rfl⟩, by decide⟩

theorem witness_DecodedValuesInRange_unused : tagOf 0x8F101C305080C101#64 = tagOf 0x80101C305080C101#64 ∧
    (payloadOf 0x8F101C305080C101#64).toNat % 2 ^ ((lookup (tagOf 0x8F101C305080C101#64)).slotCount *
      (lookup (tagOf 0x8F101C305080C101#64)).bitWidth) =
    (payloadOf 0x80101C305080C101#64).toNat % 2 ^ ((lookup (tagOf 0x8F101C305080C101#64)).slotCount *
      (lookup (tagOf 0x8F101C305080C101#64)).bitWidth) := by decide

theorem witness_MultiplexerView : (239 < 240 ∧ 239 < (lookup 0#4).slotCount) ∧
    (lookup (tagOf 0x2800000000000000#64)).bitWidth ≠ 0 ∧
    59 < (lookup (tagOf 0x2800000000000000#64)).slotCount * (lookup (tagOf 0x2800000000000000#64)).bitWidth ∧
    eligible 8#4 [1, 2, 3, 4, 5, 6, 7, 8] = true ∧ (lookup 8#4).bitWidth ≠ 0 ∧
    ¬ 59 < (lookup 8#4).slotCount * (lookup 8#4).bitWidth := by decide

theorem witness_HostReadsDecodedValues : (givenWord 0#64).phase = .idle ∧ (givenWord 0#64).win = .written 0#64 ∧
    (∃ t, exec .decode (givenWord 0#64) = .next t) ∧ (239#8).toNat < (lookup (tagOf 0#64)).slotCount ∧ 240 ≤ (240#8).toNat :=
  ⟨rfl, rfl, ⟨_, rfl⟩, by decide, by decide⟩

theorem witness_DecodeUndoesEncode : Inputs (given [1]) [1] ∧
    (∃ t, exec .encode (given [1]) = .next t ∧ t.wout = .written 0xF000000000000001#64 ∧ t.consumed = .written 1#8) ∧
    (givenWord 0xF000000000000001#64).win = .written 0xF000000000000001#64 :=
  ⟨inputs_given _ (by decide), ⟨_, rfl, by decide, by decide⟩, rfl⟩

theorem witness_DecodeUndoesEncode_empty : Inputs (given []) [] ∧
    (∃ t, exec .encode (given []) = .next t ∧ t.wout = .written 0#64 ∧ t.consumed = .written 0#8) ∧
    (givenWord 0#64).win = .written 0#64 := ⟨inputs_given _ (by decide), ⟨_, rfl, rfl, rfl⟩, rfl⟩

theorem witness_CanonicalWords : Inputs (given [1]) [1] ∧
    (∃ t, exec .encode (given [1]) = .next t ∧ t.wout = .written 0xF000000000000001#64) ∧
    canonical 0x7289207185103081#64 = true ∧
    Inputs (given (unpackValues 0x7289207185103081#64)) (unpackValues 0x7289207185103081#64) :=
  ⟨inputs_given _ (by decide), ⟨_, rfl, by decide⟩, by decide, inputs_given _ (by decide)⟩

theorem witness_StreamRoundTrip : State.reset.phase = .idle ∧ [0x0FFFFFFFFFFFFFFF#64, 0#64].length < 2 ^ 64 ∧
    (∀ v ∈ [0x0FFFFFFFFFFFFFFF#64, 0#64], v.toNat ≤ 2 ^ 60 - 1) ∧ Memory.wf State.reset.vout := ⟨rfl, by decide, by simp, by decide⟩

/-- A loop that ends in words, or in OutOfRange, seen by its end. -/
theorem stream_ok {e : StreamEnd} (h : (match e with | .ok _ _ => true | _ => false) = true) :
    ∃ words t, e = .ok words t := by
  cases e <;> simp_all

theorem stream_outOfRange {e : StreamEnd} (h : (match e with | .outOfRange _ _ _ => true | _ => false) = true) :
    ∃ pos words t, e = .outOfRange pos words t := by
  cases e <;> simp_all

theorem witness_StreamProgress : State.reset.phase = .idle ∧ (∃ words t, encodeStream [5, 7] State.reset = .ok words t) ∧
    Inputs (given [5, 7]) [5, 7] ∧ (∀ v ∈ [5#64, 7#64], v.toNat < 2 ^ 60) ∧
    (∃ t n, exec .encode (given [5, 7]) = .next t ∧ t.consumed = .written n) :=
  ⟨rfl, stream_ok (by decide +kernel), inputs_given _ (by decide), by simp, ⟨_, 2#8, rfl, by decide⟩⟩

theorem witness_StreamOutOfRange : State.reset.phase = .idle ∧ [5, 0x1000000000000000#64].length < 2 ^ 64 ∧
    (∃ pos words t, encodeStream [5, 0x1000000000000000] State.reset = .outOfRange pos words t) ∧
    Memory.wf State.reset.vout := ⟨rfl, by decide, stream_outOfRange (by decide +kernel), by decide⟩

theorem witness_CommandsDependOnlyOnOperands : Inputs (given [1]) [1] ∧
    Inputs (placeCommand (.encode 1#64 [1]) (givenWord 0#64)) [1] ∧ (∃ t, exec .encode (given [1]) = .next t) ∧
    (∃ t, exec .encode (placeCommand (.encode 1#64 [1]) (givenWord 0#64)) = .next t) ∧
    (∃ t, exec .decode (givenWord 0#64) = .next t) :=
  ⟨inputs_given _ (by decide), inputs_placed [1] (by decide) _, ⟨_, rfl⟩, ⟨_, rfl⟩, ⟨_, rfl⟩⟩

theorem witness_ErrorIsLocalToItsCommand : ∃ t, exec .encode (given [0x1000000000000000]) = .next t ∧ t.status = .written 1#1 :=
  ⟨_, rfl, by decide⟩

/-- The same engine with its command issued. -/
abbrev issued (s : State) (op : BitVec 1) : State := { clearResults s with phase := .busy op }

theorem witness_EnginesDoNotInterfere : (0 : Fin 2) ≠ 1 ∧
    (∃ a, engineAct .command (#v[given [1], givenWord 0#64])[(0 : Fin 2)] = .next a) ∧
    (∃ b, engineAct .command (#v[given [1], givenWord 0#64])[(1 : Fin 2)] = .next b) ∧
    (∃ es', stepEngine (0 : Fin 2) #v[given [1], givenWord 0#64] = .next es') := ⟨by decide, ⟨_, rfl⟩, ⟨_, rfl⟩, ⟨_, rfl⟩⟩

/-- Two engines busy at once: each may be completed, reset (which abandons a DECODE), or have VIN written above COUNT. -/
theorem witness_EnginesDoNotInterfere_busy :
    (∃ es', hostActEngine (1 : Fin 2) .issue #v[issued (given [1]) 0#1, givenWord 0#64] = .next es') ∧
    (∃ es', completeEngine (0 : Fin 2) #v[issued (given [1]) 0#1, issued (givenWord 0#64) 1#1] = .next es') ∧
    (∃ es', completeEngine (1 : Fin 2) #v[issued (given [1]) 0#1, issued (givenWord 0#64) 1#1] = .next es') ∧
    (∃ es', hostActEngine (1 : Fin 2) .reset #v[issued (given [1]) 0#1, issued (givenWord 0#64) 1#1] = .next es') ∧
    (∃ es', hostActEngine (0 : Fin 2) (.writeVin 1#64 7#64) #v[issued (given [1]) 0#1, issued (givenWord 0#64) 1#1] = .next es') :=
  ⟨⟨_, rfl⟩, ⟨_, rfl⟩, ⟨_, rfl⟩, ⟨_, rfl⟩, ⟨_, rfl⟩⟩

/-- An engine nothing has prepared: the first write of OP after reset. -/
theorem witness_EnginesDoNotInterfere_unprepared :
    ∃ es', hostActEngine (0 : Fin 2) (.writeOp 1#1) #v[State.reset, State.reset] = .next es' := ⟨_, rfl⟩

theorem witness_HostWritesDoWhatTheySay : State.reset.phase = .idle ∧ (239#8).toNat < 240 ∧ 240 ≤ (240#8).toNat := by decide

/-- The first entry above COUNT - 1 during a command, and VIN while COUNT is unwritten. -/
theorem witness_HostWritesDoWhatTheySay_vin : State.reset.count = .unwritten ∧
    (issued (given [1]) 0#1).phase = .busy 0#1 ∧ (issued (given [1]) 0#1).count = .written 1#64 ∧
    (1#64 : BitVec 64) ≤ 1#64 := ⟨rfl, rfl, rfl, by decide⟩

theorem witness_IssueIsAcceptedExactlyWhenReady : Memory.wf (given [1]).vin ∧ (given [1]).Ready ∧
    (∃ t, issue (given [1]) = .next t) ∧ (givenWord 0#64).Ready ∧ (∃ t, issue (givenWord 0#64) = .next t) :=
  ⟨by decide, ⟨rfl, .inl ⟨rfl, [1], inputs_given _ (by decide)⟩⟩, ⟨_, rfl⟩, ⟨rfl, .inr ⟨rfl, _, rfl⟩⟩, ⟨_, rfl⟩⟩

/-- An issue whose operand register is unwritten, or whose VIN is short, is refused (R27, U5; log entry 15). -/
theorem test_issue_refuses : issue { State.reset with op := .written 0#1 } = .refused (.operandUnwritten .count) ∧
    issue { State.reset with op := .written 1#1 } = .refused (.operandUnwritten .win) ∧
    issue { given [1] with count := .written 2#64 } = .refused .vinShort := ⟨rfl, rfl, rfl⟩

/-- Engine 0 completes its ENCODE of one value while engine 1 is still busy (R90 to R105: 5 under selector 15). -/
theorem test_completeEngine :
    (Answer.result? (completeEngine (0 : Fin 2) #v[issued (given [5]) 0#1, issued (givenWord 0#64) 1#1])).map
      (fun es => (es[0].wout, es[0].phase, es[1].phase)) = some (.written 0xF000000000000005#64, .idle, .busy 1#1) := by decide

theorem witness_PackOnes : Inputs (given (List.replicate 240 1)) (List.replicate 240 1) ∧ AllOnes (List.replicate 240 1#64) ∧
    240 ≤ (List.replicate 240 1#64).length ∧ Inputs (given (List.replicate 120 1)) (List.replicate 120 1) ∧
    AllOnes (List.replicate 120 1#64) ∧ 120 ≤ (List.replicate 120 1#64).length :=
  ⟨inputs_given _ (by simp only [List.length_replicate]; decide), fun _ h => List.eq_of_mem_replicate h,
    by rw [List.length_replicate], inputs_given _ (by simp only [List.length_replicate]; decide),
    fun _ h => List.eq_of_mem_replicate h, by rw [List.length_replicate]⟩

/-- The hypotheses of `Packs i T n b m` are met by n values m. -/
theorem witness_Packs (n m : Nat) (hn : n < 2 ^ 64) :
    Inputs (given (List.replicate n (BitVec.ofNat 64 m))) (List.replicate n (BitVec.ofNat 64 m)) ∧
    n ≤ (List.replicate n (BitVec.ofNat 64 m)).length ∧
    ∀ j, j < n → ((List.replicate n (BitVec.ofNat 64 m)).getD j 0#64).toNat ≤ m := by
  refine ⟨inputs_given _ (by simpa using hn), by simp, fun j hj => ?_⟩
  simp [List.getD, hj, Nat.mod_le]

/-- Some state and values meet the hypotheses of `Packs i T n b m`. -/
abbrev PacksMet (n m : Nat) : Prop :=
  ∃ s vs, Inputs s vs ∧ n ≤ vs.length ∧ ∀ j, j < n → (vs.getD j 0#64).toNat ≤ m

theorem witness_PackNarrowFields : PacksMet 60 1 ∧ PacksMet 30 3 ∧ PacksMet 20 7 ∧ PacksMet 15 15 ∧ PacksMet 12 31 :=
  ⟨⟨_, _, witness_Packs 60 1 (by decide)⟩, ⟨_, _, witness_Packs 30 3 (by decide)⟩, ⟨_, _, witness_Packs 20 7 (by decide)⟩,
    ⟨_, _, witness_Packs 15 15 (by decide)⟩, ⟨_, _, witness_Packs 12 31 (by decide)⟩⟩

theorem witness_PackWideFields : PacksMet 10 63 ∧ PacksMet 8 127 ∧ PacksMet 7 255 ∧ PacksMet 6 1023 ∧ PacksMet 5 4095 ∧
    PacksMet 4 32767 ∧ PacksMet 3 1048575 ∧ PacksMet 2 1073741823 ∧ PacksMet 1 1152921504606846975 :=
  ⟨⟨_, _, witness_Packs 10 63 (by decide)⟩, ⟨_, _, witness_Packs 8 127 (by decide)⟩, ⟨_, _, witness_Packs 7 255 (by decide)⟩,
    ⟨_, _, witness_Packs 6 1023 (by decide)⟩, ⟨_, _, witness_Packs 5 4095 (by decide)⟩, ⟨_, _, witness_Packs 4 32767 (by decide)⟩,
    ⟨_, _, witness_Packs 3 1048575 (by decide)⟩, ⟨_, _, witness_Packs 2 1073741823 (by decide)⟩,
    ⟨_, _, witness_Packs 1 1152921504606846975 (by decide)⟩⟩

theorem witness_PackOutsidePreconditionIsRefused : Inputs (given [64]) [64] ∧ ¬ SpecEligible 7#4 [64#64] ∧
    Inputs (given [0x1000000000000000]) [0x1000000000000000] ∧ ¬ SpecEligible 15#4 [0x1000000000000000#64] :=
  ⟨inputs_given _ (by decide), by decide, inputs_given _ (by decide), by decide⟩

theorem witness_ConsumedLegalValues : Inputs (given [1]) [1] ∧
    (∃ t, exec .encode (given [1]) = .next t ∧ t.status = .written 0#1) ∧
    Inputs (given [0x1000000000000000]) [0x1000000000000000] ∧
    (∃ t, exec .encode (given [0x1000000000000000]) = .next t ∧ t.status = .written 1#1) ∧
    Inputs (given []) [] ∧ (∃ t, exec .encode (given []) = .next t ∧ t.status = .written 0#1) :=
  ⟨inputs_given _ (by decide), ⟨_, rfl, by decide⟩, inputs_given _ (by decide), ⟨_, rfl, by decide⟩,
    inputs_given _ (by decide), ⟨_, rfl, by decide⟩⟩

theorem witness_ProducedLegalValues : (givenWord 0#64).win = .written 0#64 ∧ ∃ t, exec .decode (givenWord 0#64) = .next t :=
  ⟨rfl, _, rfl⟩

theorem witness_UnwrittenResultsFault : (∃ t, issue (given [1]) = .next t) ∧
    (∃ t, exec .encode (given [1]) = .next t ∧ t.status = .written 0#1) ∧
    (∃ t, exec .encode (given [0x1000000000000000]) = .next t ∧ t.status = .written 1#1) ∧
    (∃ t, exec .decode (givenWord 0#64) = .next t) :=
  ⟨⟨_, rfl⟩, ⟨_, rfl, by decide⟩, ⟨_, rfl, by decide⟩, ⟨_, rfl⟩⟩

theorem witness_ResetAtAnyTime : ({ State.reset with phase := .busy 1#1 } : State).phase = .busy 1#1 ∧
    (given [1]).phase ≠ .busy 1#1 := by decide

theorem witness_HostIsRefusedDuringCommand : ({ given [1] with phase := .busy 0#1 } : State).phase = .busy 0#1 ∧
    ({ given [1] with phase := .busy 0#1 } : State).count = .written 1#64 ∧ (0#64 : BitVec 64) < 1#64 := ⟨rfl, rfl, by decide⟩

/-- A state with values in VIN and VOUT that meets the invariant. -/
theorem inv_given : ({ given [1] with vout := [(239, 7#64)] } : State).Inv where
  vin_wf := by decide
  vin_below := by decide
  vout_wf := by decide
  vout_below := by decide
  results := .inl ⟨rfl, rfl, rfl, rfl⟩
  busy_unwritten := fun h => absurd rfl h

theorem witness_EveryStepKeepsInvariant : ({ given [1] with vout := [(239, 7#64)] } : State).Inv ∧
    ∃ t, step { given [1] with vout := [(239, 7#64)] } = .next t := ⟨inv_given, _, rfl⟩

theorem witness_HostAndCompletionKeepInvariant : ({ given [1] with vout := [(239, 7#64)] } : State).Inv ∧
    (∃ t, hostAct (.writeVout 0#8 5#64) { given [1] with vout := [(239, 7#64)] } = .next t) ∧
    (∃ t, hostAct .issue { given [1] with vout := [(239, 7#64)] } = .next t ∧ ∃ u, complete t = .next u) :=
  ⟨inv_given, ⟨_, rfl⟩, ⟨_, rfl, _, rfl⟩⟩

theorem witness_HostAndCompletionKeepInvariant_busy : ({ given [1] with phase := .busy 0#1 } : State).Inv where
  vin_wf := by decide
  vin_below := by decide
  vout_wf := by decide
  vout_below := by decide
  results := .inl ⟨rfl, rfl, rfl, rfl⟩
  busy_unwritten := fun _ => ⟨rfl, rfl, rfl, rfl⟩

end Sys2Proof.Tests
end

section
/-! PROOFS. The family 00_scope.md: what a command ends with is a function of its operands (R9, R151), and a command taken
apart into issue and completion ends as one step does (R8, R182). -/

namespace Sys2Proof.Machine

/-- What the dispatch runs for ENCODE. -/
@[simp] theorem exec_encode (s : State) : exec .encode s = execEncode s := rfl

/-- What the dispatch runs for DECODE. -/
@[simp] theorem exec_decode (s : State) : exec .decode s = execDecode s := rfl

/-! ### Commands depend only on their operands -/

/-- The four result registers: WOUT, CONSUMED, PRODUCED, STATUS. -/
def State.results (s : State) : Reg 64 × Reg 8 × Reg 8 × Reg 1 := (s.wout, s.consumed, s.produced, s.status)

/-- Two states have equal result registers exactly when each register is equal. -/
theorem State.results_eq_iff {s t : State} :
    s.results = t.results ↔ s.wout = t.wout ∧ s.consumed = t.consumed ∧ s.produced = t.produced ∧ s.status = t.status := by
  simp [State.results]

/-- The result registers an ENCODE ends with, from its values alone. -/
def encodeResults (vs : List Word) : Reg 64 × Reg 8 × Reg 8 × Reg 1 :=
  if vs = [] then (.written 0#64, .written 0#8, .unwritten, .written statusOk)
  else
    match select vs with
    | some k => (.written (packWord k vs), .written (BitVec.ofNat 8 (lookup k).slotCount), .unwritten, .written statusOk)
    | none => (.unwritten, .unwritten, .unwritten, .written statusOutOfRange)

/-- The result registers a DECODE ends with, from its word alone. -/
def decodeResults (w : Word) : Reg 64 × Reg 8 × Reg 8 × Reg 1 :=
  (.unwritten, .unwritten, .written (BitVec.ofNat 8 (lookup (tagOf w)).slotCount), .written statusOk)

/-- However an ENCODE ends, its values determine the result registers (R106, R151). -/
theorem results_of_execEncode {s t : State} {vs : List Word} (hi : Inputs s vs) (h : execEncode s = .next t) :
    t.results = encodeResults vs := by
  obtain ⟨us, hus, hend⟩ := execEncode_next h
  obtain rfl : vs = us := by simpa [encodeInput_of_inputs hi] using hus
  obtain ⟨rfl, rfl⟩ | ⟨k, hne, hk, rfl⟩ | ⟨hne, hk, rfl⟩ := hend
  · rfl
  · simp [State.results, encodeResults, hne, hk]
  · simp [State.results, encodeResults, hne, hk]

/-- A DECODE of a given word ends as the UNPACK of that word on the cleared state. -/
theorem execDecode_of_win {s : State} {w : Word} (hw : s.win = .written w) :
    execDecode s = .next (unpack w (clearResults s)) := by
  simp only [execDecode, hw]

/-- The word of a DECODE determines the result registers. -/
theorem results_unpack_clearResults (w : Word) (s : State) : (unpack w (clearResults s)).results = decodeResults w := by
  simp [State.results, decodeResults]

/-- The word of a DECODE determines the entries of VOUT below its slot count. -/
theorem read_unpack_of_lt {w : Word} {i : Nat} (hlt : i < (lookup (tagOf w)).slotCount) (s : State) :
    Memory.read (unpack w s).vout i = some (slotValue (lookup (tagOf w)).bitWidth i w) := by
  rw [read_unpack, if_pos hlt]

/-- Settles O36: the results of both commands, and the entries a DECODE writes, are functions of the operands. -/
theorem commandsDependOnlyOnOperands : Obligations.CommandsDependOnlyOnOperands := by
  constructor
  · intro s s' t t' vs hi hi' h h'
    rw [exec_encode] at h h'
    exact State.results_eq_iff.1 ((results_of_execEncode hi h).trans (results_of_execEncode hi' h').symm)
  · intro s s' t t' w hw hw' h h'
    obtain rfl : unpack w (clearResults s) = t := by simpa [execDecode_of_win hw] using h
    obtain rfl : unpack w (clearResults s') = t' := by simpa [execDecode_of_win hw'] using h'
    have hresults := State.results_eq_iff.1
      ((results_unpack_clearResults w s).trans (results_unpack_clearResults w s').symm)
    obtain ⟨hwout, hconsumed, hproduced, hstatus⟩ := hresults
    exact ⟨hwout, hconsumed, hproduced, hstatus, fun i hlt =>
      (read_unpack_of_lt hlt _).trans (read_unpack_of_lt hlt _).symm⟩

/-! ### Issue and completion make one step -/

/-- The same state with the command in progress replaced. -/
def State.withPhase (s : State) (p : Phase) : State := { s with phase := p }

/-- Replacing the phase by itself changes nothing. -/
theorem State.withPhase_eq_self {s : State} {p : Phase} (hp : s.phase = p) : s.withPhase p = s := by
  subst hp; rfl

/-- `andThen` is associative. -/
theorem Answer.andThen_assoc {α β γ : Type} (a : Answer α) (f : α → Answer β) (g : β → Answer γ) :
    Answer.andThen (Answer.andThen a f) g = Answer.andThen a (fun x => Answer.andThen (f x) g) := by
  cases a <;> rfl

/-- ENCODE neither looks at the phase nor changes it. -/
theorem execEncode_withPhase (s : State) (p : Phase) :
    execEncode (s.withPhase p) = Answer.andThen (execEncode s) (fun t => .next (t.withPhase p)) := by
  have hinput : encodeInput (s.withPhase p) = encodeInput s := rfl
  unfold execEncode
  rw [hinput]
  rcases encodeInput s with r | _ | ⟨v, vs⟩
  · rfl
  · rfl
  · cases hk : select (v :: vs) with
    | none => simp only [hk]; rfl
    | some k => simp only [hk]; rfl

/-- DECODE neither looks at the phase nor changes it. -/
theorem execDecode_withPhase (s : State) (p : Phase) :
    execDecode (s.withPhase p) = Answer.andThen (execDecode s) (fun t => .next (t.withPhase p)) := by
  have hwin : (s.withPhase p).win = s.win := rfl
  unfold execDecode
  rw [hwin]
  cases s.win <;> rfl

/-- Neither command looks at the phase or changes it. -/
theorem exec_command_withPhase (op : BitVec 1) (s : State) (p : Phase) :
    exec (decodeCommand op) (s.withPhase p) =
      Answer.andThen (exec (decodeCommand op) s) (fun t => .next (t.withPhase p)) := by
  obtain ⟨-, hcode⟩ | ⟨-, hcode⟩ := decodeCommand_cases op
  · simpa only [hcode, exec_encode] using execEncode_withPhase s p
  · simpa only [hcode, exec_decode] using execDecode_withPhase s p

/-- Both commands clear the result registers themselves, so clearing them first makes no difference (R22). -/
theorem exec_command_clearResults (op : BitVec 1) (s : State) :
    exec (decodeCommand op) (clearResults s) = exec (decodeCommand op) s := by
  obtain ⟨-, hcode⟩ | ⟨-, hcode⟩ := decodeCommand_cases op <;> rw [hcode]
  · rfl
  · rfl

/-- A command whose operands are not there is refused for the reason the operand check names. -/
theorem exec_command_of_operandCheck_some {op : BitVec 1} {s : State} {r : Refusal} (hr : operandCheck op s = some r) :
    exec (decodeCommand op) s = .refused r := by
  obtain ⟨rfl, hcode⟩ | ⟨rfl, hcode⟩ := decodeCommand_cases op <;> rw [hcode]
  · cases hi : encodeInput s with
    | ok vs => simp [operandCheck, hi] at hr
    | error q =>
      obtain rfl : q = r := by simpa [operandCheck, hi] using hr
      simp [execEncode, hi]
  · cases hw : s.win with
    | written w => simp [operandCheck, hw] at hr
    | unwritten =>
      obtain rfl : .operandUnwritten .win = r := by simpa [operandCheck, hw] using hr
      simp [execDecode, hw]

/-- While a command is in progress, a step is refused (R182). -/
theorem step_of_busy {s : State} {op : BitVec 1} (hp : s.phase = .busy op) : step s = .refused .commandInProgress := by
  simp [step, fetch, hp, Answer.andThen]

/-- With OP unwritten, a step of an idle engine is refused (R27). -/
theorem step_of_op_unwritten {s : State} (hp : s.phase = .idle) (ho : s.op = .unwritten) :
    step s = .refused (.operandUnwritten .op) := by
  simp [step, fetch, hp, ho, Answer.andThen]

/-- A step of an idle engine runs the command OP selects, refusals included (R8). -/
theorem step_of_op_written {s : State} {op : BitVec 1} (hp : s.phase = .idle) (ho : s.op = .written op) :
    step s = exec (decodeCommand op) s := by
  simp [step, fetch, hp, ho, Answer.andThen]

/-- While a command is in progress, an issue is refused (R182). -/
theorem issue_of_busy {s : State} {op : BitVec 1} (hp : s.phase = .busy op) : issue s = .refused .commandInProgress := by
  simp [issue, hp]

/-- With OP unwritten, an issue on an idle engine is refused (R27). -/
theorem issue_of_op_unwritten {s : State} (hp : s.phase = .idle) (ho : s.op = .unwritten) :
    issue s = .refused (.operandUnwritten .op) := by
  simp [issue, hp, ho]

/-- An issue is refused for the reason the operand check names (R27; U5). -/
theorem issue_of_operandCheck_some {s : State} {op : BitVec 1} {r : Refusal} (hp : s.phase = .idle)
    (ho : s.op = .written op) (hr : operandCheck op s = some r) : issue s = .refused r := by
  simp [issue, hp, ho, hr]

/-- With its operands there, a command is issued: the results are cleared and it is in progress (R22, R182). -/
theorem issue_of_operandCheck_none {s : State} {op : BitVec 1} (hp : s.phase = .idle) (ho : s.op = .written op)
    (hc : operandCheck op s = none) : issue s = .next ((clearResults s).withPhase (.busy op)) :=
  issue_next.2 ⟨op, hp, ho, hc, rfl⟩

/-- A completion runs the sampled command and leaves the engine idle (R182). -/
theorem complete_withPhase_busy (op : BitVec 1) (s : State) :
    complete (s.withPhase (.busy op)) = exec (decodeCommand op) (s.withPhase .idle) := by
  calc complete (s.withPhase (.busy op))
      = Answer.andThen (exec (decodeCommand op) (s.withPhase (.busy op))) (fun t => .next (t.withPhase .idle)) := rfl
    _ = Answer.andThen (exec (decodeCommand op) s) (fun t => .next (t.withPhase .idle)) := by
      rw [exec_command_withPhase, Answer.andThen_assoc]; rfl
    _ = exec (decodeCommand op) (s.withPhase .idle) := (exec_command_withPhase op s .idle).symm

/-- Settles O51: where the issue is refused the step is refused alike, and otherwise the completion runs the command the step
runs, the cleared results and the phase making no difference. -/
theorem issueThenCompleteIsStep : Obligations.IssueThenCompleteIsStep := by
  intro s
  cases hp : s.phase with
  | busy op => rw [issue_of_busy hp, step_of_busy hp]; rfl
  | idle =>
    cases ho : s.op with
    | unwritten => rw [issue_of_op_unwritten hp ho, step_of_op_unwritten hp ho]; rfl
    | written op =>
      rw [step_of_op_written hp ho]
      cases hc : operandCheck op s with
      | some r => rw [issue_of_operandCheck_some hp ho hc, exec_command_of_operandCheck_some hc]; rfl
      | none =>
        have hidle : (clearResults s).withPhase .idle = clearResults s := State.withPhase_eq_self hp
        calc Answer.andThen (issue s) complete
            = complete ((clearResults s).withPhase (.busy op)) := by rw [issue_of_operandCheck_none hp ho hc]; rfl
          _ = exec (decodeCommand op) (clearResults s) := by rw [complete_withPhase_busy, hidle]
          _ = exec (decodeCommand op) s := exec_command_clearResults op s

end Sys2Proof.Machine
end

section
/-! PROOFS. The family 10_state.md: the selector table, which instruction a step runs and when it completes, what it leaves
alone, the registers as the host meets them, and the invariant of the machine. -/

namespace Sys2Proof.Machine

/-! ### The selector table -/

/-- The fields of a word fit its payload (R13 (a)). -/
theorem slotCount_mul_bitWidth_le (k : Tag) : (lookup k).slotCount * (lookup k).bitWidth ≤ 60 := by revert k; decide

/-- The sixteen slot counts, in rising order (R11, R19). -/
theorem slotCounts_eq : (scanOrder.map fun k => (lookup k).slotCount).reverse =
    [1, 2, 3, 4, 5, 6, 7, 8, 10, 12, 15, 20, 30, 60, 120, 240] := by decide

/-- A number is a slot count exactly when it is one of the sixteen (R19). -/
theorem mem_slotCounts_iff {m : Nat} :
    m ∈ [1, 2, 3, 4, 5, 6, 7, 8, 10, 12, 15, 20, 30, 60, 120, 240] ↔ ∃ k : Tag, (lookup k).slotCount = m := by
  rw [← slotCounts_eq]
  simp [mem_scanOrder]

/-- A slot count survives its 8-bit register. -/
@[simp] theorem toNat_ofNat_slotCount (k : Tag) : (BitVec.ofNat 8 (lookup k).slotCount).toNat = (lookup k).slotCount := by
  rw [BitVec.toNat_ofNat, Nat.mod_eq_of_lt (slotCount_lt k)]

/-- Settles O1: the table is a constant, read off row by row. -/
theorem selectorTableContents : Obligations.SelectorTableContents := by
  constructor
  · decide
  · decide

/-- Settles O2: items (a) to (d) are read off the table; for (e), the tag is all that the descriptor of a word depends on. -/
theorem selectorTableInvariants : Obligations.SelectorTableInvariants := by
  refine ⟨slotCount_mul_bitWidth_le, by decide, by decide, by decide, by decide, fun w w' htag => ?_⟩
  simp [htag]

/-! ### Words and their fields -/

/-- The tag of a word put together from a tag and a payload (R51). -/
@[simp] theorem tagOf_mkWord (k : Tag) (p : Payload) : tagOf (mkWord k p) = k := by
  refine BitVec.eq_of_getLsbD_eq fun i hi => ?_
  have hbit : 60 + i < 64 := by omega
  simp [tagOf, mkWord, tagBits, hi, hbit]

/-- The payload of a word put together from a tag and a payload (R51). -/
@[simp] theorem payloadOf_mkWord (k : Tag) (p : Payload) : payloadOf (mkWord k p) = p := by
  refine BitVec.eq_of_getLsbD_eq fun i hi => ?_
  simp [payloadOf, mkWord, tagBits, hi]
  omega

/-- A word is its tag over its payload (R51). -/
@[simp] theorem mkWord_tagOf_payloadOf (w : Word) : mkWord (tagOf w) (payloadOf w) = w := by
  refine BitVec.eq_of_getLsbD_eq fun i hi => ?_
  by_cases h : i < 60
  · simp [mkWord, tagBits, tagOf, payloadOf, h, hi]
  · have htag : 60 + (i - 60) = i := by omega
    have hlt : i - 60 < 4 := by omega
    simp [mkWord, tagBits, tagOf, payloadOf, h, hi, htag, hlt]

/-- The fields of `n` values of `b` bits make a number of `n * b` bits (R57). -/
theorem toNat_fieldBits_lt {b : Nat} {us : List Word} (hb : 0 < b) (hlen : us.length * b ≤ 60)
    (hfit : ∀ u ∈ us, u.toNat ≤ 2 ^ b - 1) : (fieldBits b 0 us).toNat < 2 ^ (us.length * b) := by
  refine Nat.lt_pow_two_of_testBit _ fun p hp => ?_
  have hslot : ¬ p / b < 0 + us.length := by
    rw [Nat.zero_add, Nat.not_lt]
    exact (Nat.le_div_iff_mul_le hb).2 hp
  have hbits := getLsbD_fieldBits hb 0 us (by rw [Nat.zero_add]; omega) hfit p
  rw [if_neg fun h => hslot h.2] at hbits
  exact hbits

/-- The word of an eligible selector is its tag over a payload that reaches no unused bit (R55, R57). -/
theorem packWord_eq_mkWord {k : Tag} {vs : List Word} (h : eligible k vs = true) :
    ∃ p : Payload, packWord k vs = mkWord k p ∧ p.toNat < 2 ^ ((lookup k).slotCount * (lookup k).bitWidth) := by
  by_cases hb : (lookup k).bitWidth = 0
  · exact ⟨0#60, by simp [packWord, mkWord, hb], by simp [hb]⟩
  · obtain ⟨hlen, hfit⟩ := packed_fits h hb
    have hle := slotCount_mul_bitWidth_le k
    have hlt := toNat_fieldBits_lt (Nat.pos_of_ne_zero hb) (by rwa [hlen]) hfit
    rw [hlen] at hlt
    have hlt60 := hlt.trans_le (Nat.pow_le_pow_right (by decide) hle)
    refine ⟨(fieldBits (lookup k).bitWidth 0 (vs.take (lookup k).slotCount)).setWidth 60, ?_, ?_⟩
    · have hback : ((fieldBits (lookup k).bitWidth 0 (vs.take (lookup k).slotCount)).setWidth 60).setWidth 64 =
          fieldBits (lookup k).bitWidth 0 (vs.take (lookup k).slotCount) := by
        refine BitVec.eq_of_toNat_eq ?_
        rw [BitVec.toNat_setWidth, BitVec.toNat_setWidth, Nat.mod_eq_of_lt hlt60, Nat.mod_eq_of_lt (BitVec.isLt _)]
      rw [packWord, if_neg hb, mkWord, hback]
    · rwa [BitVec.toNat_setWidth, Nat.mod_eq_of_lt hlt60]

/-- The word of an eligible selector carries that selector as its tag (R57). -/
theorem tagOf_packWord {k : Tag} {vs : List Word} (h : eligible k vs = true) : tagOf (packWord k vs) = k := by
  obtain ⟨p, hw, -⟩ := packWord_eq_mkWord h
  rw [hw, tagOf_mkWord]

/-- The word of an eligible selector is canonical (R59). -/
theorem canonical_packWord {k : Tag} {vs : List Word} (h : eligible k vs = true) : canonical (packWord k vs) = true := by
  obtain ⟨p, hw, hlt⟩ := packWord_eq_mkWord h
  simpa [canonical, hw] using hlt

/-! ### Decoding -/

/-- A number is decoded as a command code when it is 0 or 1 (R14). -/
theorem decodeTableWord_command (w : Nat) :
    decodeTableWord 8 w = if w = 0 then some .encode else if w = 1 then some .decode else none := by
  match w with
  | 0 => rfl
  | 1 => rfl
  | w + 2 => simp [decodeTableWord, decodeRaw]

/-- A number of 64 bits or fewer is decoded as an input word, and no other number is (R50, R58). -/
theorem decodeTableWord_word (w : Nat) :
    decodeTableWord 64 w = if w < 2 ^ 64 then some (decodeInputWord (BitVec.ofNat 64 w)) else none := by
  unfold decodeTableWord decodeRaw
  rw [if_neg (by decide), if_pos rfl]
  by_cases h : w < 2 ^ 64
  · rw [if_pos h, if_pos h]; rfl
  · rw [if_neg h, if_neg h]

/-- Settles O8, from what the decoder answers at each of the two lengths. -/
theorem rawBitsDecodeOrAreRejected : Obligations.RawBitsDecodeOrAreRejected := by
  refine ⟨decodeTableWord_command, fun w => ?_⟩
  rw [decodeTableWord_word]
  by_cases h : w < 2 ^ 64
  · rw [if_pos h]
    exact iff_of_true ⟨_, rfl⟩ h
  · rw [if_neg h]
    exact iff_of_false (by simp) h

/-- The UNPACK.k that a word decodes to is the generic unpack of that word (R63, R74). -/
theorem exec_decodeInputWord (w : Word) (s : State) : exec (decodeInputWord w) s = .next (unpack w s) := by
  obtain ⟨k, p, rfl⟩ : ∃ k p, w = mkWord k p := ⟨_, _, (mkWord_tagOf_payloadOf w).symm⟩
  unfold decodeInputWord
  rw [tagOf_mkWord, payloadOf_mkWord]
  have hk := mem_scanOrder k
  simp only [scanOrder, List.mem_cons, List.not_mem_nil, or_false] at hk
  rcases hk with rfl | rfl | rfl | rfl | rfl | rfl | rfl | rfl | rfl | rfl | rfl | rfl | rfl | rfl | rfl | rfl <;> rfl

/-! ### When a command completes -/

/-- With its operands there, a command completes (R115, R183). -/
theorem exec_command_of_operandCheck_none {op : BitVec 1} {s : State} (hc : operandCheck op s = none) :
    ∃ t, exec (decodeCommand op) s = .next t := by
  obtain ⟨rfl, vs, hvs⟩ | ⟨rfl, w, hw⟩ := operandCheck_none.1 hc
  · change ∃ t, execEncode s = .next t
    cases vs with
    | nil => exact ⟨completeEncode 0#64 0 (clearResults s), by simp [execEncode, hvs]⟩
    | cons v vs =>
      cases hk : select (v :: vs) with
      | some k => exact ⟨pack k (v :: vs) (clearResults s), by simp [execEncode, hvs, hk]⟩
      | none => exact ⟨raiseOutOfRange (clearResults s), by simp [execEncode, hvs, hk]⟩
  · exact ⟨unpack w (clearResults s), execDecode_of_win hw⟩

/-- A command completes exactly when its operands are there. -/
theorem exec_command_completes_iff {op : BitVec 1} {s : State} :
    (∃ t, exec (decodeCommand op) s = .next t) ↔ operandCheck op s = none := by
  refine ⟨fun ⟨t, ht⟩ => ?_, exec_command_of_operandCheck_none⟩
  cases hc : operandCheck op s with
  | none => rfl
  | some r => rw [exec_command_of_operandCheck_some hc] at ht; cases ht

/-- With VIN in canonical form, ENCODE has its operands exactly when some values are its inputs. -/
theorem exists_inputs_iff {s : State} (hwf : Memory.wf s.vin) :
    (∃ vs, Inputs s vs) ↔ ∃ vs, encodeInput s = .ok vs :=
  exists_congr fun _ => ⟨encodeInput_of_inputs, inputs_of_encodeInput hwf⟩

/-- With VIN in canonical form, the host has done its part exactly when the engine is idle, OP is written, and the operand
check of the selected command finds nothing missing. -/
theorem ready_iff {s : State} (hwf : Memory.wf s.vin) :
    s.Ready ↔ s.phase = .idle ∧ ∃ op, s.op = .written op ∧ operandCheck op s = none := by
  simp only [State.Ready, exists_inputs_iff hwf, operandCheck_none]
  refine and_congr_right fun _ => ⟨?_, ?_⟩
  · rintro (⟨ho, hvs⟩ | ⟨ho, hw⟩)
    · exact ⟨0#1, ho, .inl ⟨rfl, hvs⟩⟩
    · exact ⟨1#1, ho, .inr ⟨rfl, hw⟩⟩
  · rintro ⟨_, ho, ⟨rfl, hvs⟩ | ⟨rfl, hw⟩⟩
    · exact .inl ⟨ho, hvs⟩
    · exact .inr ⟨ho, hw⟩

/-- A step is safe exactly when the engine is idle, OP is written, and the operands of the selected command are there. -/
theorem safe_iff {s : State} :
    s.Safe ↔ s.phase = .idle ∧ ∃ op, s.op = .written op ∧ operandCheck op s = none := by
  simp only [State.Safe, step_next, ← exec_command_completes_iff]
  exact ⟨fun ⟨t, op, hp, ho, ht⟩ => ⟨hp, op, ho, t, ht⟩, fun ⟨hp, op, ho, t, ht⟩ => ⟨t, op, hp, ho, ht⟩⟩

/-- An issue is accepted under the same conditions. -/
theorem issue_accepted_iff {s : State} :
    (∃ t, issue s = .next t) ↔ s.phase = .idle ∧ ∃ op, s.op = .written op ∧ operandCheck op s = none := by
  simp only [issue_next]
  exact ⟨fun ⟨_, op, hp, ho, hc, _⟩ => ⟨hp, op, ho, hc⟩, fun ⟨hp, op, ho, hc⟩ => ⟨_, op, hp, ho, hc, rfl⟩⟩

/-- Settles O10: both sides say that the engine is idle, OP is written, and the operand check finds nothing missing. -/
theorem stepCompletesExactlyWhenReady : Obligations.StepCompletesExactlyWhenReady :=
  fun _ hwf => safe_iff.trans (ready_iff hwf).symm

/-- Settles O9: OP selects the command; for a DECODE, that command is the UNPACK.k its word decodes to. -/
theorem stepRunsTheDecodedInstruction : Obligations.StepRunsTheDecodedInstruction := by
  refine ⟨fun s op hp ho => step_of_op_written hp ho, fun s w hp ho hw => ?_⟩
  calc step s = execDecode s := step_of_op_written hp ho
    _ = .next (unpack w (clearResults s)) := execDecode_of_win hw
    _ = exec (decodeInputWord w) (clearResults s) := (exec_decodeInputWord w _).symm

/-! ### What a step is refused for -/

/-- Without COUNT, ENCODE has no operands (R27). -/
theorem encodeInput_of_count_unwritten {s : State} (hc : s.count = .unwritten) :
    encodeInput s = .error (.operandUnwritten .count) := by
  simp [encodeInput, hc]

/-- A memory that lacks one of its first `c` entries does not give them. -/
theorem Memory.firstN_eq_none {m : Memory} {c j : Nat} (hj : j < c) (hread : Memory.read m j = none) :
    Memory.firstN m c = none := by
  cases h : Memory.firstN m c with
  | none => rfl
  | some vs =>
    obtain ⟨hlen, hall⟩ := Memory.firstN_some h
    have hget : vs[j]? = none := (hall j hj).symm.trans hread
    rw [List.getElem?_eq_none_iff] at hget
    omega

/-- With one of the COUNT values missing from VIN, ENCODE has no operands (U5). -/
theorem encodeInput_of_vin_short {s : State} {c : BitVec 64} {j : Nat} (hc : s.count = .written c) (hj : j < c.toNat)
    (hread : Memory.read s.vin j = none) : encodeInput s = .error .vinShort := by
  simp [encodeInput, hc, Memory.firstN_eq_none hj hread]

/-- A step of an idle engine whose ENCODE has no operands is refused for the reason they are missing. -/
theorem step_of_encodeInput_error {s : State} {r : Refusal} (hp : s.phase = .idle) (ho : s.op = .written 0#1)
    (hr : encodeInput s = .error r) : step s = .refused r := by
  rw [step_of_op_written hp ho]
  exact exec_command_of_operandCheck_some (by simp [operandCheck, hr])

/-- A step of an idle engine whose DECODE has no word is refused (R27). -/
theorem step_of_win_unwritten {s : State} (hp : s.phase = .idle) (ho : s.op = .written 1#1) (hw : s.win = .unwritten) :
    step s = .refused (.operandUnwritten .win) := by
  rw [step_of_op_written hp ho]
  exact exec_command_of_operandCheck_some (by simp [operandCheck, hw])

/-- A command is in progress when the engine is not idle. -/
theorem phase_busy_of_ne_idle {s : State} (hp : s.phase ≠ .idle) : ∃ op, s.phase = .busy op := by
  cases h : s.phase with
  | idle => exact absurd h hp
  | busy op => exact ⟨op, rfl⟩

/-- Settles O11: one refusal for each thing the host may have left undone. -/
theorem stepRefusesUnpreparedCommand : Obligations.StepRefusesUnpreparedCommand := by
  intro s
  refine ⟨fun hp => ?_, step_of_op_unwritten, fun hp ho hc => ?_, step_of_win_unwritten, fun c j hp ho hc hj hread => ?_⟩
  · obtain ⟨op, hbusy⟩ := phase_busy_of_ne_idle hp
    exact step_of_busy hbusy
  · exact step_of_encodeInput_error hp ho (encodeInput_of_count_unwritten hc)
  · exact step_of_encodeInput_error hp ho (encodeInput_of_vin_short hc hj hread)

/-! ### What a command leaves alone -/

/-- ENCODE changes the result registers only, and leaves PRODUCED unwritten (R87). -/
theorem execEncode_frame {s t : State} (h : execEncode s = .next t) :
    t = { s with wout := t.wout, consumed := t.consumed, produced := .unwritten, status := t.status } := by
  obtain ⟨vs, -, ⟨-, rfl⟩ | ⟨k, -, -, rfl⟩ | ⟨-, -, rfl⟩⟩ := execEncode_next h
  · rfl
  · rfl
  · rfl

/-- DECODE changes the result registers and VOUT only, and leaves WOUT and CONSUMED unwritten (R114). -/
theorem execDecode_frame {s t : State} (h : execDecode s = .next t) :
    t = { s with wout := .unwritten, consumed := .unwritten, produced := t.produced, status := t.status,
                 vout := t.vout } := by
  obtain ⟨w, -, rfl⟩ := execDecode_next h
  rfl

/-- Neither command changes anything but the result registers and VOUT (R21). -/
theorem exec_command_frame {op : BitVec 1} {s t : State} (h : exec (decodeCommand op) s = .next t) :
    t = { s with wout := t.wout, consumed := t.consumed, produced := t.produced, status := t.status, vout := t.vout } := by
  obtain ⟨-, hcode⟩ | ⟨-, hcode⟩ := decodeCommand_cases op <;> rw [hcode] at h
  · rw [execEncode_frame h]
  · rw [execDecode_frame h]

/-- A step leaves the engine idle. -/
theorem step_phase {s t : State} (h : step s = .next t) : t.phase = .idle := by
  obtain ⟨op, hp, -, ht⟩ := step_next.1 h
  rw [exec_command_frame ht]
  exact hp

/-- Settles O12: the frame of the command run, and for a DECODE what the generic unpack leaves in VOUT above its slots. -/
theorem stepFrame : Obligations.StepFrame := by
  intro s t h
  obtain ⟨op, hp, hop, hexec⟩ := step_next.1 h
  refine ⟨exec_command_frame hexec, fun ho => ?_, fun w ho hw => ?_⟩
  · obtain rfl : op = 0#1 := by simpa [hop] using ho
    have hframe := execEncode_frame hexec
    exact ⟨by rw [hframe], by rw [hframe]⟩
  · obtain rfl : op = 1#1 := by simpa [hop] using ho
    obtain rfl : unpack w (clearResults s) = t := by simpa [decodeCommand, execDecode_of_win hw] using hexec
    refine ⟨rfl, rfl, fun i hi => ?_⟩
    rw [read_unpack, if_neg (Nat.not_lt.2 hi), clearResults_vout]

/-! ### The result registers and VOUT as the host reads them -/

/-- An idle engine is not busy. -/
theorem isBusy_of_idle {s : State} (hp : s.phase = .idle) : isBusy s = false := by
  simp [isBusy, hp]

/-- On an idle engine the host reads an entry of VOUT that holds a value (R24). -/
theorem readVout_of_read {s : State} {i : BitVec 8} {v : Word} (hp : s.phase = .idle) (hi : i.toNat < Config.voutCapacity)
    (hv : Memory.read s.vout i.toNat = some v) : readVout i s = .next v := by
  simp [readVout, isBusy_of_idle hp, Nat.not_le.2 hi, hv]

/-- VOUT has no entry at 240 and above (R24, R30). -/
theorem readVout_of_le {s : State} {i : BitVec 8} (hp : s.phase = .idle) (hi : Config.voutCapacity ≤ i.toNat) :
    readVout i s = .fault (.voutIndex i.toNat) := by
  simp [readVout, isBusy_of_idle hp, hi]

/-- Settles O30: what the generic unpack writes, seen through the host's read of VOUT. -/
theorem hostReadsDecodedValues : Obligations.HostReadsDecodedValues := by
  intro s t w i hp hw h
  obtain rfl : unpack w (clearResults s) = t := by simpa [execDecode_of_win hw] using h
  refine ⟨fun hi => ?_, fun hi => readVout_of_le hp hi, ?_, rfl⟩
  · exact readVout_of_read hp (hi.trans_le (slotCount_le _)) (read_unpack_of_lt hi _)
  · simp [readProduced, readResult]

/-- Settles O46: the legal values are those of the table and 0, and the word of a selection has the selector as its tag. -/
theorem consumedLegalValues : Obligations.ConsumedLegalValues := by
  refine ⟨fun m => by rw [List.mem_cons, mem_slotCounts_iff], fun s t vs hi h => ?_⟩
  obtain ⟨us, hus, hend⟩ := execEncode_next h
  obtain rfl : vs = us := by simpa [encodeInput_of_inputs hi] using hus
  obtain ⟨rfl, rfl⟩ | ⟨k, hne, hk, rfl⟩ | ⟨hne, -, rfl⟩ := hend
  · exact ⟨by simp [statusOk], fun _ => ⟨0#64, 0#8, rfl, rfl, fun _ => rfl, fun hne => absurd rfl hne, by decide⟩⟩
  · have htag := tagOf_packWord (select_some hk).1
    refine ⟨by simp [statusOk], fun _ => ⟨_, _, rfl, rfl, fun he => absurd he hne, fun _ => ?_, ?_⟩⟩
    · rw [htag, toNat_ofNat_slotCount]
    · rw [toNat_ofNat_slotCount, List.mem_cons, mem_slotCounts_iff]
      exact .inr ⟨k, rfl⟩
  · exact ⟨fun _ => rfl, by simp [statusOutOfRange]⟩

/-- Settles O47: a DECODE writes as many values as its word has slots. -/
theorem producedLegalValues : Obligations.ProducedLegalValues := by
  refine ⟨fun m => mem_slotCounts_iff, fun s t w hw h => ?_⟩
  obtain rfl : unpack w (clearResults s) = t := by simpa [execDecode_of_win hw] using h
  have hn := toNat_ofNat_slotCount (tagOf w)
  refine ⟨BitVec.ofNat 8 (lookup (tagOf w)).slotCount, by simp, hn, ?_, ?_⟩
  · rw [hn]
    exact Nat.one_le_iff_ne_zero.1 (one_le_slotCount _)
  · rw [hn, mem_slotCounts_iff]
    exact ⟨_, rfl⟩

/-- Settles O48: an issue clears every result register, and each way a command can end leaves unwritten those it has no
result for. -/
theorem unwrittenResultsFault : Obligations.UnwrittenResultsFault := by
  refine ⟨fun s t h => ?_, fun s t h => ?_, fun s t h => ?_⟩
  · obtain ⟨op, -, -, -, rfl⟩ := issue_next.1 h
    exact ⟨rfl, rfl, rfl, rfl⟩
  · obtain ⟨vs, -, ⟨-, rfl⟩ | ⟨k, -, -, rfl⟩ | ⟨-, -, rfl⟩⟩ := execEncode_next h
    · exact ⟨rfl, by simp [statusOk], fun _ => ⟨_, _, rfl, rfl⟩⟩
    · exact ⟨rfl, by simp [statusOk], fun _ => ⟨_, _, rfl, rfl⟩⟩
    · exact ⟨rfl, fun _ => ⟨rfl, rfl⟩, by simp [statusOutOfRange]⟩
  · obtain ⟨w, -, rfl⟩ := execDecode_next h
    exact ⟨rfl, rfl, _, rfl⟩

/-! ### Host writes, issue and reset -/

/-- Entries of VIN that are not presented to a command in progress may be written at any time (R39; log entry 8). -/
theorem hostAct_writeVin {s : State} {i : BitVec 64} (v : Word) (hfree : s.phase = .idle ∨ presented s i.toNat = false) :
    hostAct (.writeVin i v) s = .next { s with vin := Memory.write s.vin i.toNat v } := by
  have hguard : (isBusy s && presented s i.toNat) = false := by
    obtain hp | hout := hfree
    · rw [isBusy_of_idle hp, Bool.false_and]
    · rw [hout, Bool.and_false]
  simp [hostAct, hguard]

/-- With COUNT unwritten no entry of VIN is presented. -/
theorem presented_of_count_unwritten {s : State} (hc : s.count = .unwritten) (i : Nat) : presented s i = false := by
  simp [presented, hc]

/-- Entries of VIN at COUNT and above are not presented. -/
theorem presented_of_count_le {s : State} {c i : BitVec 64} (hc : s.count = .written c) (hle : c ≤ i) :
    presented s i.toNat = false := by
  have hnat : c.toNat ≤ i.toNat := BitVec.le_def.1 hle
  simpa [presented, hc] using hnat

/-- Settles O53: no write of an idle engine meets its guard, and a memory write changes the one entry. -/
theorem hostWritesDoWhatTheySay : Obligations.HostWritesDoWhatTheySay := by
  refine ⟨fun s hp => ?_, fun s i v hfree => ?_⟩
  · have hidle := isBusy_of_idle hp
    refine ⟨fun v => ?_, fun v => ?_, fun v => ?_, fun i v hi => ?_, fun i v hi => ?_⟩
    · simp [hostAct, hidle]
    · simp [hostAct, hidle]
    · simp [hostAct, hidle]
    · have hcap : ¬ Config.voutCapacity ≤ i.toNat := Nat.not_le.2 hi
      exact ⟨{ s with vout := Memory.write s.vout i.toNat v }, by simp [hostAct, hidle, hcap], rfl,
        Memory.read_write s.vout i.toNat v⟩
    · have hcap : Config.voutCapacity ≤ i.toNat := hi
      simp [hostAct, hidle, hcap]
  · have hout : s.phase = .idle ∨ presented s i.toNat = false := by
      obtain hp | hc | ⟨c, hc, hle⟩ := hfree
      · exact .inl hp
      · exact .inr (presented_of_count_unwritten hc _)
      · exact .inr (presented_of_count_le hc hle)
    exact ⟨_, hostAct_writeVin v hout, rfl, Memory.read_write s.vin i.toNat v⟩

/-- The completion of an issued command ends as the step does. -/
theorem complete_of_issue {s t : State} (h : issue s = .next t) : complete t = step s := by
  rw [← issueThenCompleteIsStep s, h]
  rfl

/-- Settles O54: acceptance is readiness; the completion ends as the step does, which is safe because the issue was accepted. -/
theorem issueIsAcceptedExactlyWhenReady : Obligations.IssueIsAcceptedExactlyWhenReady := by
  refine ⟨fun s hwf => issue_accepted_iff.trans (ready_iff hwf).symm, fun s t h => ?_⟩
  obtain ⟨u, hu⟩ : s.Safe := safe_iff.2 (issue_accepted_iff.1 ⟨t, h⟩)
  have hcomplete : complete t = .next u := (complete_of_issue h).trans hu
  obtain ⟨op, -, ho, -, rfl⟩ := issue_next.1 h
  exact ⟨op, ho, rfl, u, hcomplete, step_phase hu⟩

/-- Settles O49: every register is unwritten after reset, OP among them, so nothing can be run. -/
theorem resetState : Obligations.ResetState :=
  ⟨rfl, rfl, rfl, ⟨rfl, rfl, rfl, rfl⟩, rfl, step_of_op_unwritten rfl rfl⟩

/-- A memory that lists `f i` at each index `i` of a list reads as `f` there and as no value elsewhere. -/
theorem Memory.read_map (l : List Nat) (f : Nat → Word) (i : Nat) :
    Memory.read (l.map fun a => (a, f a)) i = if i ∈ l then some (f i) else none := by
  induction l with
  | nil => rfl
  | cons a l ih =>
    rw [List.map_cons, Memory.read_cons, ih]
    by_cases hai : a = i
    · simp [hai]
    · simp [hai, Ne.symm hai]

/-- What an abandoned DECODE leaves in VOUT: a free value at each of its entries (R180). -/
theorem read_freeVout (n i : Nat) :
    Memory.read (freeVout n) i = if i < Config.voutCapacity then some (Config.freeVoutEntry n i) else none := by
  rw [freeVout, Memory.read_map]
  simp only [List.mem_range]

/-- A reset that abandons no DECODE leaves VOUT alone (R180). -/
theorem resetEngine_vout_of_ne {s : State} (hp : s.phase ≠ .busy 1#1) : (resetEngine s).vout = s.vout := by
  unfold resetEngine
  split
  · rename_i h
    exact absurd h hp
  · rfl

/-- A reset that abandons a DECODE leaves free values in VOUT (R180). -/
theorem resetEngine_vout_of_decode {s : State} (hp : s.phase = .busy 1#1) :
    (resetEngine s).vout = freeVout s.freeCount := by
  simp [resetEngine, hp]

/-- Settles O50: the fields a reset leaves, and VOUT by whether a DECODE is abandoned. -/
theorem resetAtAnyTime : Obligations.ResetAtAnyTime := by
  intro s
  obtain ⟨hop, hcount, hwin, hresults, hvin, hphase, -⟩ := resetEngine_fields s
  refine ⟨resetEngine s, rfl, hop, hcount, hwin, hresults, hphase, hvin, resetEngine_vout_of_ne, fun hp i => ?_⟩
  rw [resetEngine_vout_of_decode hp, read_freeVout, Config.voutCapacity]
  by_cases hi : i < 240
  · rw [if_pos hi]
    exact iff_of_true ⟨_, rfl⟩ hi
  · rw [if_neg hi]
    exact iff_of_false (by simp) hi

/-! ### The invariant -/

/-- An ENCODE leaves the result registers in one of the three ways R106 gives it. -/
theorem resultsLegal_of_execEncode {s t : State} (h : execEncode s = .next t) : t.ResultsLegal := by
  obtain ⟨vs, -, ⟨-, rfl⟩ | ⟨k, -, hk, rfl⟩ | ⟨-, -, rfl⟩⟩ := execEncode_next h
  · exact .inr (.inl ⟨0#64, 0#8, rfl, rfl, rfl, rfl, .inl ⟨rfl, rfl⟩⟩)
  · have he := (select_some hk).1
    refine .inr (.inl ⟨_, _, rfl, rfl, rfl, rfl, .inr ⟨canonical_packWord he, ?_⟩⟩)
    rw [tagOf_packWord he, toNat_ofNat_slotCount]
  · exact .inr (.inr (.inl ⟨rfl, rfl, rfl, rfl⟩))

/-- A DECODE leaves the slot count of its word's tag in PRODUCED, and nothing in WOUT and CONSUMED (R136). -/
theorem resultsLegal_unpack (w : Word) (s : State) : (unpack w (clearResults s)).ResultsLegal :=
  .inr (.inr (.inr ⟨tagOf w, _, rfl, rfl, rfl, rfl, by rw [length_unpackValues, toNat_ofNat_slotCount]⟩))

/-- An UNPACK keeps VOUT in canonical form and within its index range (R30, R33). -/
theorem State.Inv.vout_unpack {s : State} (hs : s.Inv) (w : Word) :
    Memory.wf (unpack w s).vout ∧ Memory.below Config.voutCapacity (unpack w s).vout := by
  refine ⟨Memory.wf_writeFrom hs.vout_wf _ _, Memory.below_writeFrom hs.vout_below _ _ ?_⟩
  rw [length_unpackValues, Nat.zero_add]
  exact slotCount_le _

/-- A command that has completed, on an engine idle again, keeps the invariant: it ends with legal results, and changes no
memory but VOUT, within its range. -/
theorem State.Inv.exec_command {op : BitVec 1} {s t : State} (hs : s.Inv) (h : exec (decodeCommand op) s = .next t) :
    (t.withPhase .idle).Inv := by
  obtain ⟨-, hcode⟩ | ⟨-, hcode⟩ := decodeCommand_cases op <;> rw [hcode] at h
  · have hlegal := resultsLegal_of_execEncode h
    have hvin : t.vin = s.vin := by rw [execEncode_frame h]
    have hvout : t.vout = s.vout := by rw [execEncode_frame h]
    exact {
      vin_wf := hvin ▸ hs.vin_wf
      vin_below := hvin ▸ hs.vin_below
      vout_wf := hvout ▸ hs.vout_wf
      vout_below := hvout ▸ hs.vout_below
      results := hlegal
      busy_unwritten := fun hbusy => absurd rfl hbusy }
  · obtain ⟨w, -, rfl⟩ := execDecode_next h
    obtain ⟨hwf, hbelow⟩ := hs.vout_unpack w
    exact {
      vin_wf := hs.vin_wf
      vin_below := hs.vin_below
      vout_wf := hwf
      vout_below := hbelow
      results := resultsLegal_unpack w s
      busy_unwritten := fun hbusy => absurd rfl hbusy }

/-- The invariant asks nothing of the operand registers. -/
theorem State.Inv.withOperands {s : State} (hs : s.Inv) (op : Reg 1) (count win : Reg 64) :
    ({ s with op := op, count := count, win := win } : State).Inv :=
  ⟨hs.vin_wf, hs.vin_below, hs.vout_wf, hs.vout_below, hs.results, hs.busy_unwritten⟩

/-- A write of an entry of VIN, whose index is 64 bits wide, keeps the invariant (R30). -/
theorem State.Inv.writeVin {s : State} (hs : s.Inv) (i : BitVec 64) (v : Word) :
    ({ s with vin := Memory.write s.vin i.toNat v } : State).Inv :=
  ⟨Memory.wf_write hs.vin_wf _ v, Memory.below_write hs.vin_below i.isLt v, hs.vout_wf, hs.vout_below, hs.results,
    hs.busy_unwritten⟩

/-- A write of an entry that VOUT has keeps the invariant (R30). -/
theorem State.Inv.writeVout {s : State} (hs : s.Inv) {i : Nat} (hi : i < Config.voutCapacity) (v : Word) :
    ({ s with vout := Memory.write s.vout i v } : State).Inv :=
  ⟨hs.vin_wf, hs.vin_below, Memory.wf_write hs.vout_wf _ v, Memory.below_write hs.vout_below hi v, hs.results,
    hs.busy_unwritten⟩

/-- An issue keeps the invariant: it leaves the results unwritten, and a command in progress (R22, R182). -/
theorem State.Inv.issue {s t : State} (hs : s.Inv) (h : issue s = .next t) : t.Inv := by
  obtain ⟨op, -, -, -, rfl⟩ := issue_next.1 h
  exact ⟨hs.vin_wf, hs.vin_below, hs.vout_wf, hs.vout_below, .inl ⟨rfl, rfl, rfl, rfl⟩, fun _ => ⟨rfl, rfl, rfl, rfl⟩⟩

/-- A reset keeps the invariant, also where it leaves free values in VOUT (R180). -/
theorem State.Inv.reset {s : State} (hs : s.Inv) : (resetEngine s).Inv := by
  obtain ⟨-, -, -, hresults, hvin, -, hvout⟩ := resetEngine_fields s
  have hout : Memory.wf (resetEngine s).vout ∧ Memory.below Config.voutCapacity (resetEngine s).vout := by
    obtain hkept | hfree := hvout
    · rw [hkept]
      exact ⟨hs.vout_wf, hs.vout_below⟩
    · rw [hfree]
      exact freeVout_wf _
  exact ⟨hvin ▸ hs.vin_wf, hvin ▸ hs.vin_below, hout.1, hout.2, .inl hresults, fun _ => hresults⟩

/-- Settles O55: nothing is listed in either memory at reset, and no result register is written. -/
theorem invariantHoldsAtReset : Obligations.InvariantHoldsAtReset where
  vin_wf := reset_wf.1
  vin_below := fun _ he => absurd he List.not_mem_nil
  vout_wf := reset_wf.2
  vout_below := fun _ he => absurd he List.not_mem_nil
  results := .inl ⟨rfl, rfl, rfl, rfl⟩
  busy_unwritten := fun _ => ⟨rfl, rfl, rfl, rfl⟩

/-- Settles O56: a step is a completed command that leaves the engine idle. -/
theorem everyStepKeepsInvariant : Obligations.EveryStepKeepsInvariant := by
  intro s t hs h
  obtain ⟨op, -, -, hexec⟩ := step_next.1 h
  have hinv := hs.exec_command hexec
  rwa [State.withPhase_eq_self (step_phase h)] at hinv

/-- Settles O57: by what a host action can do; and a completion is a completed command with the engine made idle. -/
theorem hostAndCompletionKeepInvariant : Obligations.HostAndCompletionKeepInvariant := by
  refine ⟨fun a s t hs h => ?_, fun s t hs h => ?_⟩
  · obtain ⟨v, -, -, rfl⟩ | ⟨v, -, -, rfl⟩ | ⟨v, -, -, rfl⟩ | ⟨i, v, -, rfl⟩ | ⟨i, v, -, -, hi, rfl⟩ | ⟨-, hissue⟩ | ⟨-, rfl⟩ :=
      hostAct_next h
    · exact hs.withOperands (.written v) s.count s.win
    · exact hs.withOperands s.op (.written v) s.win
    · exact hs.withOperands s.op s.count (.written v)
    · exact hs.writeVin i v
    · exact hs.writeVout hi v
    · exact hs.issue hissue
    · exact hs.reset
  · obtain ⟨op, u, -, hexec, rfl⟩ := complete_next.1 h
    exact hs.exec_command hexec

end Sys2Proof.Machine
end


section
/-! PROOFS. The family 20_memory.md: what the host may not do during a command (R39, R40), which entries of VIN an ENCODE
looks at (R35), and engines side by side (R41, R172). -/

namespace Sys2Proof.Machine

/-! ### What the host is refused during a command -/

/-- A command in progress makes the engine busy (R27, R182). -/
theorem isBusy_of_busy {s : State} {op : BitVec 1} (hp : s.phase = .busy op) : isBusy s = true := by
  simp [isBusy, hp]

/-- Entries of VIN below COUNT are presented (R39). -/
theorem presented_of_lt_count {s : State} {c i : BitVec 64} (hc : s.count = .written c) (hlt : i < c) :
    presented s i.toNat = true := by
  have hnat : i.toNat < c.toNat := BitVec.lt_def.1 hlt
  simpa [presented, hc] using hnat

/-- Settles O52: a write of VIN is guarded by the engine being busy and the entry being presented, every other access by the
engine being busy alone. -/
theorem hostIsRefusedDuringCommand : Obligations.HostIsRefusedDuringCommand := by
  intro s op hp
  have hbusy := isBusy_of_busy hp
  refine ⟨fun v => ?_, fun v => ?_, fun v => ?_, fun i c v hc hlt => ?_, fun i v => ?_, fun i => ?_, issue_of_busy hp⟩
  · simp [hostAct, hbusy]
  · simp [hostAct, hbusy]
  · simp [hostAct, hbusy]
  · simp [hostAct, hbusy, presented_of_lt_count hc hlt]
  · simp [hostAct, hbusy]
  · simp [readVout, hbusy]

/-! ### Which entries of VIN an ENCODE looks at -/

/-- A selector with fields packs at most 60 values (R11). -/
theorem slotCount_le_of_bitWidth_ne_zero : ∀ k : Tag, (lookup k).bitWidth ≠ 0 → (lookup k).slotCount ≤ 60 := by decide

/-- A zero-width selector stands for at least 120 values (R11). -/
theorem le_slotCount_of_bitWidth_eq_zero : ∀ k : Tag, (lookup k).bitWidth = 0 → 120 ≤ (lookup k).slotCount := by decide

/-- A zero-width selector is eligible exactly when there are enough values and all of them are 1 (R83). -/
theorem eligible_iff_of_bitWidth_eq_zero {k : Tag} (hb : (lookup k).bitWidth = 0) (vs : List Word) :
    eligible k vs = true ↔ (lookup k).slotCount ≤ vs.length ∧ AllOnes vs := by
  simp [eligible, testedValues, fits, hb]

/-- A selector with fields is eligible exactly when there are enough values and the ones it packs fit (R82). -/
theorem eligible_iff_of_bitWidth_ne_zero {k : Tag} (hb : (lookup k).bitWidth ≠ 0) (vs : List Word) :
    eligible k vs = true ↔ (lookup k).slotCount ≤ vs.length ∧ ∀ v ∈ vs.take (lookup k).slotCount, fits k v = true := by
  simp [eligible, testedValues, hb]

/-- Lists that agree on the first 60 values agree on the values that a selector with fields packs (R35 (b)). -/
theorem take_slotCount_congr {k : Tag} {vs us : List Word} (hb : (lookup k).bitWidth ≠ 0) (h60 : vs.take 60 = us.take 60) :
    vs.take (lookup k).slotCount = us.take (lookup k).slotCount := by
  have hmin : min (lookup k).slotCount 60 = (lookup k).slotCount := Nat.min_eq_left (slotCount_le_of_bitWidth_ne_zero k hb)
  calc vs.take (lookup k).slotCount
      = (vs.take 60).take (lookup k).slotCount := by rw [List.take_take, hmin]
    _ = (us.take 60).take (lookup k).slotCount := by rw [h60]
    _ = us.take (lookup k).slotCount := by rw [List.take_take, hmin]

/-- Eligibility depends on the number of values, on the first 60 of them and, from 120 values on, on whether all are 1
(R35 (b), (c)). -/
theorem eligible_congr {vs us : List Word} (hlen : vs.length = us.length) (h60 : vs.take 60 = us.take 60)
    (hones : 120 ≤ vs.length → (AllOnes vs ↔ AllOnes us)) (k : Tag) : eligible k vs = eligible k us := by
  rw [Bool.eq_iff_iff]
  by_cases hb : (lookup k).bitWidth = 0
  · rw [eligible_iff_of_bitWidth_eq_zero hb, eligible_iff_of_bitWidth_eq_zero hb, ← hlen]
    exact and_congr_right fun hle => hones ((le_slotCount_of_bitWidth_eq_zero k hb).trans hle)
  · rw [eligible_iff_of_bitWidth_ne_zero hb, eligible_iff_of_bitWidth_ne_zero hb, hlen, take_slotCount_congr hb h60]

/-- The word of a selector depends on the first 60 values only (R35 (b)). -/
theorem packWord_congr {vs us : List Word} (h60 : vs.take 60 = us.take 60) (k : Tag) : packWord k vs = packWord k us := by
  by_cases hb : (lookup k).bitWidth = 0
  · rw [packWord, packWord, if_pos hb, if_pos hb]
  · rw [packWord, packWord, if_neg hb, if_neg hb, take_slotCount_congr hb h60]

/-- A write of VIN at COUNT or above leaves ENCODE the values it was given (R35 (d)). -/
theorem Inputs.writeVin {s : State} {vs : List Word} (hi : Inputs s vs) {j : Nat} (hj : vs.length ≤ j) (v : Word) :
    Inputs { s with vin := Memory.write s.vin j v } vs := by
  obtain ⟨hcount, hlt, hwf, hread⟩ := hi
  refine ⟨hcount, hlt, Memory.wf_write hwf j v, fun i hlen => ?_⟩
  have hne : i ≠ j := by omega
  calc Memory.read (Memory.write s.vin j v) i
      = Memory.read s.vin i := by rw [Memory.read_write, if_neg hne]
    _ = vs[i]? := hread i hlen

/-- An ENCODE of no values ends with the zero word and nothing consumed (R81). -/
theorem execEncode_of_inputs_nil {s : State} (hi : Inputs s []) :
    execEncode s = .next (completeEncode 0#64 0 (clearResults s)) := by
  simp only [execEncode, encodeInput_of_inputs hi]

/-- A write of VIN at COUNT or above stays there and changes nothing else in how an ENCODE ends (R35 (d)). -/
theorem execEncode_writeVin {s t : State} {vs : List Word} {j : Nat} (v : Word) (hi : Inputs s vs) (hj : vs.length ≤ j)
    (h : execEncode s = .next t) :
    execEncode { s with vin := Memory.write s.vin j v } = .next { t with vin := Memory.write s.vin j v } := by
  have hi' := hi.writeVin hj v
  by_cases hne : vs = []
  · subst hne
    rw [execEncode_of_inputs_nil hi] at h
    cases h
    exact execEncode_of_inputs_nil hi'
  · rw [execEncode_of_inputs hi hne] at h
    rw [execEncode_of_inputs hi' hne]
    cases hk : select vs with
    | none => simp only [hk] at h ⊢; cases h; rfl
    | some k => simp only [hk] at h ⊢; cases h; rfl

/-- Settles O25: inputs that agree as stated make the same selectors eligible, and a selector packs at most 60 values; a
write at COUNT or above leaves the values given. -/
theorem entriesOfVinThatMatter : Obligations.EntriesOfVinThatMatter := by
  refine ⟨fun vs us hlen h60 hones => ⟨?_, fun k _ => packWord_congr h60 k⟩, fun s t vs j v hi hj h => ?_⟩
  · have heligible : (eligible · vs) = (eligible · us) := funext (eligible_congr hlen h60 hones)
    rw [select, select, heligible]
  · rw [exec_encode] at h ⊢
    exact execEncode_writeVin v hi hj h

/-! ### Several engines -/

/-- What happens to one engine ends in it as it ends alone, and leaves every other as it was (R41, R172). -/
theorem actEngine_local {n : Nat} {i : Fin n} {x : EngineAction} {es es' : Vector State n}
    (h : actEngine i x es = .next es') : engineAct x es[i] = .next es'[i] ∧ ∀ k : Fin n, k ≠ i → es'[k] = es[k] := by
  obtain ⟨t, ht, rfl⟩ := actEngine_next.1 h
  refine ⟨?_, fun k hk => ?_⟩
  · simpa using ht
  · exact Vector.getElem_set_ne _ _ (fun hik => hk (Fin.ext hik.symm))

/-- What happens to two engines, one after the other, ends in each as it ends alone: the first leaves the second as it was
(R41, R172). -/
theorem actEngine_andThen_actEngine {n : Nat} {es : Vector State n} {i j : Fin n} {x y : EngineAction} {a b : State}
    (hij : i ≠ j) (ha : engineAct x es[i] = .next a) (hb : engineAct y es[j] = .next b) :
    Answer.andThen (actEngine i x es) (actEngine j y) = .next ((es.set i a).set j b) := by
  have hfirst : actEngine i x es = .next (es.set i a) := actEngine_next.2 ⟨a, ha, rfl⟩
  have hother : (es.set i a)[j] = es[j] := (actEngine_local hfirst).2 j hij.symm
  have hsecond : actEngine j y (es.set i a) = .next ((es.set i a).set j b) := actEngine_next.2 ⟨b, by rw [hother, hb], rfl⟩
  exact Answer.andThen_next.2 ⟨_, hfirst, hsecond⟩

/-- Settles O38: a command, a completion and a host action are each something that happens to one engine; and of two
engines either may come first, the writes of two entries of the row commuting. -/
theorem enginesDoNotInterfere : Obligations.EnginesDoNotInterfere := by
  refine ⟨fun n es es' i act => ⟨fun h => (actEngine_local h).1, fun h => (actEngine_local h).1,
    fun h => (actEngine_local h).1, ?_⟩, fun n es i j x y a b hij ha hb => ⟨actEngine_andThen_actEngine hij ha hb, ?_⟩⟩
  · rintro (hstep | hcomplete | hhost)
    · exact (actEngine_local hstep).2
    · exact (actEngine_local hcomplete).2
    · exact (actEngine_local hhost).2
  · have hcomm : (es.set i a).set j b = (es.set j b).set i a := Vector.set_comm _ _ (fun hval => hij (Fin.ext hval))
    rw [hcomm]
    exact actEngine_andThen_actEngine hij.symm hb ha

end Sys2Proof.Machine
end

section
/-! PROOFS. The family 30_encoding.md: decoder and encoder undo each other (R51, R62, R63), a packed word is the sum of its
fields (R57, R61), and canonical words (R59). -/

namespace Sys2Proof.Machine

/-! ### Decoder and encoder -/

/-- The tag of a word as a number is the word shifted right by 60 (R51). -/
theorem toNat_tagOf (w : Word) : (tagOf w).toNat = (w >>> 60).toNat := by
  have hlt : w.toNat >>> 60 < 2 ^ 4 := by
    rw [Nat.shiftRight_eq_div_pow]
    have := w.isLt
    omega
  rw [tagOf, BitVec.extractLsb'_toNat, BitVec.toNat_ushiftRight, Nat.mod_eq_of_lt hlt]

/-- The payload of a word as a number is the word under the mask of sixty ones (R51). -/
theorem toNat_payloadOf (w : Word) : (payloadOf w).toNat = (w &&& 0x0FFFFFFFFFFFFFFF#64).toNat := by
  have hmask : (0x0FFFFFFFFFFFFFFF#64).toNat = 2 ^ 60 - 1 := rfl
  rw [payloadOf, BitVec.extractLsb'_toNat, Nat.shiftRight_zero, BitVec.toNat_and, hmask, Nat.and_two_pow_sub_one_eq_mod]

/-- Settles O4: both fields by their values as numbers, and the laws of `mkWord`. -/
theorem wordIsTagOverPayload : Obligations.WordIsTagOverPayload :=
  ⟨fun w => ⟨toNat_tagOf w, toNat_payloadOf w, mkWord_tagOf_payloadOf w⟩,
    fun k p => ⟨tagOf_mkWord k p, payloadOf_mkWord k p⟩⟩

/-- The encoder gives back every word that DECODE can be given (R58, R63). -/
theorem encodeInstr_decodeInputWord (w : Word) : encodeInstr (decodeInputWord w) = .inputWord w := by
  obtain ⟨k, p, rfl⟩ : ∃ k p, w = mkWord k p := ⟨_, _, (mkWord_tagOf_payloadOf w).symm⟩
  unfold decodeInputWord
  rw [tagOf_mkWord, payloadOf_mkWord]
  have hk := mem_scanOrder k
  simp only [scanOrder, List.mem_cons, List.not_mem_nil, or_false] at hk
  rcases hk with rfl | rfl | rfl | rfl | rfl | rfl | rfl | rfl | rfl | rfl | rfl | rfl | rfl | rfl | rfl | rfl <;> rfl

/-- The encoder gives back both command codes (R62). -/
theorem encodeInstr_decodeCommand (op : BitVec 1) : encodeInstr (decodeCommand op) = .command op := by
  obtain ⟨rfl, hcode⟩ | ⟨rfl, hcode⟩ := decodeCommand_cases op <;> rw [hcode]
  · rfl
  · rfl

/-- Settles O5: commands and PACK.k have closed encodings; an UNPACK.k is encoded as its tag over its payload, and the decoder
takes the two apart. -/
theorem decodeOfEncodeIsIdentity : Obligations.DecodeOfEncodeIsIdentity := by
  intro i _
  cases i with
  | encode | decode => rfl
  | pack0 | pack1 | pack2 | pack3 | pack4 | pack5 | pack6 | pack7 | pack8 | pack9 | pack10 | pack11 | pack12 | pack13
  | pack14 | pack15 => rfl
  | unpack0 p | unpack1 p | unpack2 p | unpack3 p | unpack4 p | unpack5 p | unpack6 p | unpack7 p | unpack8 p | unpack9 p
  | unpack10 p | unpack11 p | unpack12 p | unpack13 p | unpack14 p | unpack15 p =>
    rw [encodeInstr, decodeInstr, decodeInputWord, tagOf_mkWord, payloadOf_mkWord]
    rfl

/-- Settles O6: the encoder undoes the decoder of input words, which is what a 64-bit row is decoded by, and that of
commands. -/
theorem encodeOfDecodeIsIdentity : Obligations.EncodeOfDecodeIsIdentity := by
  refine ⟨fun w => ⟨encodeInstr_decodeInputWord w, ?_⟩, encodeInstr_decodeCommand⟩
  rw [decodeTableWord_word, if_pos w.isLt, BitVec.ofNat_toNat, BitVec.setWidth_eq]

/-- Settles O7: closed facts about the decoder. -/
theorem writtenOutEncodingsDecode : Obligations.WrittenOutEncodingsDecode :=
  ⟨decodeTableWord_command 0, decodeTableWord_command 1, by decide, by decide, by decide, by decide⟩

/-! ### A packed word as a number -/

/-- The tag's bits as a number (R57). -/
theorem toNat_tagBits (k : Tag) : (tagBits k).toNat = 2 ^ 60 * k.toNat := by
  revert k; decide

/-- A field of `b` bits in its slot loses no bit as long as the slot is in the word (R57). -/
theorem toNat_shiftLeft_of_lt {v : Word} {b c : Nat} (hv : v.toNat < 2 ^ b) (hc : c + b ≤ 64) :
    (v <<< c).toNat = 2 ^ c * v.toNat := by
  have hlt : 2 ^ c * v.toNat < 2 ^ 64 :=
    calc 2 ^ c * v.toNat < 2 ^ c * 2 ^ b := Nat.mul_lt_mul_of_pos_left hv (Nat.two_pow_pos c)
      _ = 2 ^ (c + b) := (pow_add 2 c b).symm
      _ ≤ 2 ^ 64 := Nat.pow_le_pow_right (by decide) hc
  rw [BitVec.toNat_shiftLeft, Nat.shiftLeft_eq, Nat.mul_comm, Nat.mod_eq_of_lt hlt]

/-- The OR of a field with the fields above it is their sum. -/
theorem or_fields_above {x b : Nat} (hx : x < 2 ^ b) (c d : Nat) :
    2 ^ c * x ||| 2 ^ (c + b) * d = 2 ^ c * (x + 2 ^ b * d) := by
  calc 2 ^ c * x ||| 2 ^ (c + b) * d
      = x <<< c ||| (2 ^ b * d) <<< c := by
        rw [Nat.shiftLeft_eq, Nat.shiftLeft_eq, Nat.mul_comm x, Nat.mul_comm (2 ^ b * d), pow_add, Nat.mul_assoc]
    _ = (2 ^ b * d ||| x) <<< c := by rw [← Nat.shiftLeft_or_distrib, Nat.or_comm]
    _ = 2 ^ c * (x + 2 ^ b * d) := by
        rw [← Nat.two_pow_add_eq_or_of_lt hx, Nat.shiftLeft_eq, Nat.mul_comm, Nat.add_comm x]

/-- The values packed from slot `i` on are, as a number, the digits of a number in base `2 ^ b`, shifted to slot `i`: no field
spills into another (R57). -/
theorem toNat_fieldBits {b : Nat} (i : Nat) (vs : List Word) (hm : (i + vs.length) * b ≤ 64)
    (hf : ∀ v ∈ vs, v.toNat ≤ 2 ^ b - 1) :
    (fieldBits b i vs).toNat = 2 ^ (i * b) * Nat.ofDigits (2 ^ b) (vs.map BitVec.toNat) := by
  induction vs generalizing i with
  | nil => simp [fieldBits]
  | cons v vs ih =>
    have hv : v.toNat < 2 ^ b := Nat.lt_of_le_pred (Nat.two_pow_pos b) (hf v List.mem_cons_self)
    have hnext : (i + 1) * b = i * b + b := Nat.succ_mul i b
    have hm' : (i + 1 + vs.length) * b ≤ 64 := by rwa [Nat.add_assoc, Nat.add_comm 1]
    have hslot : i * b + b ≤ 64 := hnext ▸ (Nat.mul_le_mul_right b (Nat.le_add_right _ _)).trans hm'
    rw [fieldBits, BitVec.toNat_or, toNat_shiftLeft_of_lt hv hslot,
      ih (i + 1) hm' fun u hu => hf u (List.mem_cons_of_mem v hu), hnext, or_fields_above hv, List.map_cons,
      Nat.ofDigits_cons]

/-- The number with the first `n` values as its digits, as a sum over the slots. -/
theorem ofDigits_take_eq_sum (b n : Nat) (vs : List Word) (hn : n ≤ vs.length) :
    Nat.ofDigits (2 ^ b) ((vs.take n).map BitVec.toNat) =
      ((List.range n).map fun i => (vs.getD i 0#64).toNat * 2 ^ (i * b)).sum := by
  rw [Nat.ofDigits_eq_sum_mapIdx]
  congr 1
  refine List.ext_getElem (by simp [hn]) fun i hi hi' => ?_
  have hlt : i < vs.length := (show i < n by simpa using hi').trans_le hn
  simp [hlt, ← pow_mul, Nat.mul_comm b i]

/-- As many values as a selector has slots fit a word (R13 (a)). -/
theorem packed_slots_in_word {k : Tag} {us : List Word} (hlen : us.length = (lookup k).slotCount) :
    (0 + us.length) * (lookup k).bitWidth ≤ 64 := by
  rw [hlen, Nat.zero_add]
  exact (slotCount_mul_bitWidth_le k).trans (by decide)

/-- The fields of an eligible selector reach no bit of the tag (R61 (d)). -/
theorem toNat_fieldBits_lt_tag {k : Tag} {vs : List Word} (h : eligible k vs = true) (hb : (lookup k).bitWidth ≠ 0) :
    (fieldBits (lookup k).bitWidth 0 (vs.take (lookup k).slotCount)).toNat < 2 ^ 60 := by
  obtain ⟨hlen, hfit⟩ := packed_fits h hb
  have hle := hlen.symm ▸ slotCount_mul_bitWidth_le k
  exact (toNat_fieldBits_lt (Nat.pos_of_ne_zero hb) hle hfit).trans_le (Nat.pow_le_pow_right (by decide) hle)

/-- Settles O24: the fields are the digits of a number, which stays below the tag. -/
theorem packedWordIsSumOfFields : Obligations.PackedWordIsSumOfFields := by
  intro k vs h hb
  obtain ⟨hn, -⟩ := (eligible_iff_of_bitWidth_ne_zero hb vs).1 h
  obtain ⟨hlen, hfit⟩ := packed_fits h hb
  have hsum := toNat_fieldBits 0 _ (packed_slots_in_word hlen) hfit
  rw [Nat.zero_mul, pow_zero, Nat.one_mul, ofDigits_take_eq_sum _ _ _ hn] at hsum
  rw [packWord, if_neg hb, BitVec.toNat_or, toNat_tagBits, ← Nat.two_pow_add_eq_or_of_lt (toNat_fieldBits_lt_tag h hb), hsum,
    Nat.mul_comm]

/-! ### Canonical words -/

/-- The tag's bits leave the payload's alone (R51). -/
theorem getLsbD_tagBits_of_lt {p : Nat} (hp : p < 60) (k : Tag) : (tagBits k).getLsbD p = false := by
  simp [tagBits, hp]

/-- A word is canonical when its payload reaches no unused bit (R59). -/
theorem canonical_iff {w : Word} :
    canonical w = true ↔ (payloadOf w).toNat < 2 ^ ((lookup (tagOf w)).slotCount * (lookup (tagOf w)).bitWidth) := by
  rw [canonical, decide_eq_true_iff]

/-- A canonical word with a zero-width tag has no payload bit set (R59). -/
theorem eq_tagBits_of_canonical {w : Word} (hc : canonical w = true) (hb : (lookup (tagOf w)).bitWidth = 0) :
    w = tagBits (tagOf w) := by
  rw [canonical_iff, hb, Nat.mul_zero, pow_zero, Nat.lt_one_iff] at hc
  have hp : payloadOf w = 0#60 := BitVec.eq_of_toNat_eq hc
  calc w = mkWord (tagOf w) (payloadOf w) := (mkWord_tagOf_payloadOf w).symm
    _ = tagBits (tagOf w) := by simp [hp, mkWord]

/-- A word with a zero-width tag unpacks to ones, whatever its payload (R56, R112). -/
theorem unpackValues_of_bitWidth_eq_zero {w : Word} (hb : (lookup (tagOf w)).bitWidth = 0) :
    unpackValues w = List.replicate (lookup (tagOf w)).slotCount 1#64 := by
  refine List.eq_replicate_iff.2 ⟨length_unpackValues w, fun v hv => ?_⟩
  obtain ⟨i, -, rfl⟩ := List.mem_map.1 hv
  rw [slotValue, if_pos hb]

/-- A slot value is at most the mask of its width (R56). -/
theorem toNat_slotValue_le {b : Nat} (hb : b ≠ 0) (i : Nat) (w : Word) : (slotValue b i w).toNat ≤ 2 ^ b - 1 := by
  rw [slotValue, if_neg hb, BitVec.toNat_and, BitVec.toNat_ofNat]
  exact Nat.and_le_right.trans (Nat.mod_le _ _)

/-- The values of a word are eligible for the selector that its tag is (R59). -/
theorem eligible_unpackValues (w : Word) : eligible (tagOf w) (unpackValues w) = true := by
  by_cases hb : (lookup (tagOf w)).bitWidth = 0
  · refine (eligible_iff_of_bitWidth_eq_zero hb _).2 ⟨(length_unpackValues w).ge, fun v hv => ?_⟩
    rw [unpackValues_of_bitWidth_eq_zero hb] at hv
    exact List.eq_of_mem_replicate hv
  · refine (eligible_iff_of_bitWidth_ne_zero hb _).2 ⟨(length_unpackValues w).ge, fun v hv => ?_⟩
    obtain ⟨i, -, rfl⟩ := List.mem_map.1 (List.mem_of_mem_take hv)
    rw [fits, if_neg hb]
    exact decide_eq_true (toNat_slotValue_le hb i w)

/-- The slot counts fall strictly from each selector to the next (R11, R13). -/
theorem slotCount_lt_of_lt : ∀ k k' : Tag, k' < k → (lookup k).slotCount < (lookup k').slotCount := by decide

/-- Fewer values than slots make a selector not eligible (R82). -/
theorem eligible_eq_false_of_length_lt {k : Tag} {vs : List Word} (hlt : vs.length < (lookup k).slotCount) :
    eligible k vs = false := by
  rw [eligible, decide_eq_false (Nat.not_le.2 hlt), Bool.false_and]

/-- The values of a word select its tag: every smaller selector needs more values (R59). -/
theorem select_unpackValues (w : Word) : select (unpackValues w) = some (tagOf w) := by
  refine select_eq (eligible_unpackValues w) fun k' hlt => eligible_eq_false_of_length_lt ?_
  rw [length_unpackValues]
  exact slotCount_lt_of_lt _ _ hlt

/-- The bits of a slot of a packed word are those of the value packed there (R57). -/
theorem getLsbD_packWord_slot {k : Tag} {vs : List Word} {i q : Nat} (h : eligible k vs = true)
    (hi : i < (lookup k).slotCount) (hq : q < (lookup k).bitWidth) :
    (packWord k vs).getLsbD (i * (lookup k).bitWidth + q) = (vs.getD i 0#64).getLsbD q := by
  have hpos : 0 < (lookup k).bitWidth := by omega
  obtain ⟨hlen, hfit⟩ := packed_fits h hpos.ne'
  have hle := slotCount_mul_bitWidth_le k
  have hp : i * (lookup k).bitWidth + q < 60 := by
    have hslots := Nat.mul_le_mul_right (lookup k).bitWidth (Nat.succ_le_of_lt hi)
    rw [Nat.succ_mul] at hslots
    omega
  have hdiv : (i * (lookup k).bitWidth + q) / (lookup k).bitWidth = i := by
    rw [Nat.mul_comm, Nat.mul_add_div hpos, Nat.div_eq_of_lt hq, Nat.add_zero]
  have hmod : (i * (lookup k).bitWidth + q) % (lookup k).bitWidth = q := by
    rw [Nat.mul_comm, Nat.mul_add_mod, Nat.mod_eq_of_lt hq]
  rw [packWord, if_neg hpos.ne', BitVec.getLsbD_or, getLsbD_tagBits_of_lt hp, Bool.false_or,
    getLsbD_fieldBits hpos 0 _ (packed_slots_in_word hlen) hfit, hdiv, hmod, hlen, if_pos (by omega)]
  simp [List.getD, hi]

/-- A slot of a packed word holds the value packed there (R57, R112). -/
theorem slotValue_packWord {k : Tag} {vs : List Word} {i : Nat} (h : eligible k vs = true)
    (hb : (lookup k).bitWidth ≠ 0) (hi : i < (lookup k).slotCount) :
    slotValue (lookup k).bitWidth i (packWord k vs) = vs.getD i 0#64 := by
  obtain ⟨hn, -⟩ := (eligible_iff_of_bitWidth_ne_zero hb vs).1 h
  obtain ⟨-, hfit⟩ := packed_fits h hb
  have hilen : i < vs.length := hi.trans_le hn
  have hle : (vs.getD i 0#64).toNat ≤ 2 ^ (lookup k).bitWidth - 1 := by
    rw [List.getD_eq_getElem vs 0#64 hilen]
    exact hfit _ (List.mem_take_iff_getElem.2 ⟨i, by omega, rfl⟩)
  refine BitVec.eq_of_getLsbD_eq fun q _ => ?_
  rw [getLsbD_slotValue hb (bitWidth_le k)]
  by_cases hq : q < (lookup k).bitWidth
  · rw [decide_eq_true hq, Bool.true_and, getLsbD_packWord_slot h hi hq]
  · rw [decide_eq_false hq, Bool.false_and, getLsbD_of_le_mask hle (Nat.not_lt.1 hq)]

/-- Unpacking the word of an eligible selector gives the values that the selector stands for (R57, R83, R112). -/
theorem unpackValues_packWord {k : Tag} {vs : List Word} (h : eligible k vs = true) :
    unpackValues (packWord k vs) = vs.take (lookup k).slotCount := by
  have htag := tagOf_packWord h
  by_cases hb : (lookup k).bitWidth = 0
  · obtain ⟨hn, hones⟩ := (eligible_iff_of_bitWidth_eq_zero hb vs).1 h
    rw [unpackValues_of_bitWidth_eq_zero (htag.symm ▸ hb), htag]
    exact (List.eq_replicate_iff.2 ⟨List.length_take_of_le hn, fun v hv => hones v (List.mem_of_mem_take hv)⟩).symm
  · obtain ⟨hn, -⟩ := (eligible_iff_of_bitWidth_ne_zero hb vs).1 h
    refine List.ext_getElem (by simp [htag, hn]) fun i hi _ => ?_
    rw [length_unpackValues, htag] at hi
    have hilen : i < vs.length := hi.trans_le hn
    simp [unpackValues, htag, slotValue_packWord h hb hi, hilen]

/-- The bits of the payload are those of the word (R51). -/
theorem getLsbD_payloadOf {p : Nat} (hp : p < 60) (w : Word) : (payloadOf w).getLsbD p = w.getLsbD p := by
  simp [payloadOf, hp]

/-- A canonical word has no payload bit at or above its slots (R55, R59). -/
theorem getLsbD_payloadOf_of_canonical {w : Word} {p : Nat} (hc : canonical w = true)
    (hp : (lookup (tagOf w)).slotCount * (lookup (tagOf w)).bitWidth ≤ p) : (payloadOf w).getLsbD p = false :=
  Nat.testBit_lt_two_pow ((canonical_iff.1 hc).trans_le (Nat.pow_le_pow_right (by decide) hp))

/-- Two words with one tag and the same values have the same bits in their slots (R56, R112). -/
theorem getLsbD_eq_of_unpackValues_eq {w w' : Word} {p : Nat} (htag : tagOf w = tagOf w')
    (hvals : unpackValues w = unpackValues w') (hp : p < (lookup (tagOf w)).slotCount * (lookup (tagOf w)).bitWidth) :
    w.getLsbD p = w'.getLsbD p := by
  have hb : (lookup (tagOf w)).bitWidth ≠ 0 := fun h0 => by simp [h0] at hp
  have hpos := Nat.pos_of_ne_zero hb
  have hslot : p / (lookup (tagOf w)).bitWidth < (lookup (tagOf w)).slotCount := (Nat.div_lt_iff_lt_mul hpos).2 hp
  have hvalue : slotValue (lookup (tagOf w)).bitWidth (p / (lookup (tagOf w)).bitWidth) w =
      slotValue (lookup (tagOf w)).bitWidth (p / (lookup (tagOf w)).bitWidth) w' := by
    have hget := congrArg (·[p / (lookup (tagOf w)).bitWidth]?) hvals
    simp only [getElem?_unpackValues, ← htag, if_pos hslot] at hget
    exact Option.some.inj hget
  have hbit := congrArg (·.getLsbD (p % (lookup (tagOf w)).bitWidth)) hvalue
  simpa [getLsbD_slotValue hb (bitWidth_le _), Nat.mod_lt p hpos, Nat.div_add_mod'] using hbit

/-- A canonical word is determined by its tag and its values (R59). -/
theorem eq_of_canonical {w w' : Word} (hc : canonical w = true) (hc' : canonical w' = true) (htag : tagOf w = tagOf w')
    (hvals : unpackValues w = unpackValues w') : w = w' := by
  have hpayload : payloadOf w = payloadOf w' := by
    refine BitVec.eq_of_getLsbD_eq fun p hp60 => ?_
    by_cases hp : p < (lookup (tagOf w)).slotCount * (lookup (tagOf w)).bitWidth
    · rw [getLsbD_payloadOf hp60, getLsbD_payloadOf hp60, getLsbD_eq_of_unpackValues_eq htag hvals hp]
    · rw [Nat.not_lt] at hp
      rw [getLsbD_payloadOf_of_canonical hc hp, getLsbD_payloadOf_of_canonical hc' (htag ▸ hp)]
  rw [← mkWord_tagOf_payloadOf w, htag, hpayload, mkWord_tagOf_payloadOf]

/-- The canonical word with the tag and the values of a given word. -/
def canonicalForm (w : Word) : Word := packWord (tagOf w) (unpackValues w)

/-- The canonical form is canonical (R59). -/
theorem canonical_canonicalForm (w : Word) : canonical (canonicalForm w) = true :=
  canonical_packWord (eligible_unpackValues w)

/-- The canonical form keeps the tag. -/
@[simp] theorem tagOf_canonicalForm (w : Word) : tagOf (canonicalForm w) = tagOf w :=
  tagOf_packWord (eligible_unpackValues w)

/-- The canonical form keeps the values (R59). -/
@[simp] theorem unpackValues_canonicalForm (w : Word) : unpackValues (canonicalForm w) = unpackValues w := by
  rw [canonicalForm, unpackValues_packWord (eligible_unpackValues w), ← length_unpackValues, List.take_length]

/-- A canonical word is its own canonical form (R59). -/
theorem canonicalForm_eq_self {w : Word} (hc : canonical w = true) : canonicalForm w = w :=
  eq_of_canonical (canonical_canonicalForm w) hc (tagOf_canonicalForm w) (unpackValues_canonicalForm w)

/-- However an ENCODE ends, a word it leaves in WOUT is canonical (R59, R106). -/
theorem canonical_of_execEncode {s t : State} {w : Word} (h : execEncode s = .next t) (hw : t.wout = .written w) :
    canonical w = true := by
  obtain ⟨vs, -, ⟨-, rfl⟩ | ⟨k, -, hk, rfl⟩ | ⟨-, -, rfl⟩⟩ := execEncode_next h
  · obtain rfl : 0#64 = w := by simpa using hw
    rfl
  · obtain rfl : packWord k vs = w := by simpa using hw
    exact canonical_packWord (select_some hk).1
  · simp at hw

/-- An ENCODE of the values of a word answers the canonical form of that word (R59). -/
theorem execEncode_unpackValues {s : State} {w : Word} (hi : Inputs s (unpackValues w)) :
    execEncode s = .next (encodeDone (canonicalForm w) (BitVec.ofNat 8 (lookup (tagOf w)).slotCount) s) := by
  have hne : unpackValues w ≠ [] := by
    refine List.ne_nil_of_length_pos ?_
    rw [length_unpackValues]
    exact one_le_slotCount _
  rw [execEncode_of_inputs hi hne, select_unpackValues]
  rfl

/-- A canonical word with a zero-width tag is the tag over zeros, and its values are ones (R59). -/
theorem canonical_of_bitWidth_eq_zero {w : Word} {k : Tag} (hc : canonical w = true) (htag : tagOf w = k)
    (hb : (lookup k).bitWidth = 0) : w = tagBits k ∧ unpackValues w = List.replicate (lookup k).slotCount 1#64 := by
  subst htag
  exact ⟨eq_tagBits_of_canonical hc hb, unpackValues_of_bitWidth_eq_zero hb⟩

/-- Settles O32: ENCODE answers canonical forms, a canonical word is its own, and a zero-width tag has one. -/
theorem canonicalWords : Obligations.CanonicalWords := by
  refine ⟨fun s t vs w _ h hw => canonical_of_execEncode h hw, fun s w hc hi => ?_,
    fun w hc => ⟨fun htag => ?_, fun htag => ?_⟩,
    fun w => ⟨canonicalForm w, canonical_canonicalForm w, tagOf_canonicalForm w, unpackValues_canonicalForm w⟩⟩
  · rw [exec_encode, execEncode_unpackValues hi, canonicalForm_eq_self hc]
  · exact canonical_of_bitWidth_eq_zero (k := 0#4) hc htag rfl
  · exact canonical_of_bitWidth_eq_zero (k := 1#4) hc htag rfl

end Sys2Proof.Machine
end

section
/-! PROOFS. The family 40_selector_table.md: the fit test of each selector and the least selector a value fits (R72). -/

namespace Sys2Proof.Machine

/-! ### The fit test -/

/-- A value fits a zero-width selector exactly when it is 1 (R72). -/
theorem fits_iff_of_bitWidth_eq_zero {k : Tag} (hb : (lookup k).bitWidth = 0) (v : Word) : fits k v = true ↔ v = 1#64 := by
  rw [fits, if_pos hb, beq_iff_eq]

/-- A value fits a selector with fields exactly when it is at most the mask of the fields' width (R72). -/
theorem fits_iff_of_bitWidth_ne_zero {k : Tag} (hb : (lookup k).bitWidth ≠ 0) (v : Word) :
    fits k v = true ↔ v.toNat ≤ mask (lookup k).bitWidth := by
  rw [fits, if_neg hb, decide_eq_true_iff]

/-- The selectors from 2 on have fields (R11). -/
theorem bitWidth_ne_zero_of_two_le {k : Tag} (hk : 2#4 ≤ k) : (lookup k).bitWidth ≠ 0 :=
  fun hb => BitVec.not_lt.2 hk ((bitWidth_eq_zero k).1 hb)

/-- The fit test of the selectors from 2 on (R72). -/
theorem fits_iff_of_two_le {k : Tag} (hk : 2#4 ≤ k) (v : Word) : fits k v = true ↔ v.toNat ≤ mask (lookup k).bitWidth :=
  fits_iff_of_bitWidth_ne_zero (bitWidth_ne_zero_of_two_le hk) v

/-- From selector 2 on, the fields widen strictly from each selector to the next (R13). -/
theorem bitWidth_lt_of_lt : ∀ k k' : Tag, 2#4 ≤ k → k < k' → (lookup k).bitWidth < (lookup k').bitWidth := by decide

/-- The mask of a wider field is no smaller. -/
theorem mask_mono {b b' : Nat} (h : b ≤ b') : mask b ≤ mask b' :=
  Nat.sub_le_sub_right (Nat.pow_le_pow_right (by decide) h) 1

/-- What fits a selector from 2 on fits every later one, whose fields are wider (R72). -/
theorem fits_of_lt {k k' : Tag} {v : Word} (hk : 2#4 ≤ k) (hlt : k < k') (hfit : fits k v = true) : fits k' v = true := by
  have hk' : 2#4 ≤ k' := BitVec.le_trans hk (BitVec.le_of_lt hlt)
  refine (fits_iff_of_two_le hk' v).2 ?_
  calc v.toNat
      ≤ mask (lookup k).bitWidth := (fits_iff_of_two_le hk v).1 hfit
    _ ≤ mask (lookup k').bitWidth := mask_mono (bitWidth_lt_of_lt k k' hk hlt).le

/-- The value `2^b_k` does not fit selector k: it is one above the mask (R72). -/
theorem fits_eq_false_of_toNat_eq_two_pow {k : Tag} {v : Word} (hk : 2#4 ≤ k) (hv : v.toNat = 2 ^ (lookup k).bitWidth) :
    fits k v = false := by
  have hmask : mask (lookup k).bitWidth < v.toNat := hv ▸ Nat.sub_one_lt (Nat.two_pow_pos _).ne'
  exact Bool.eq_false_iff.2 fun hfit => Nat.not_le.2 hmask ((fits_iff_of_two_le hk v).1 hfit)

/-! ### The least selector a value fits -/

/-- The scan for the least selector compares the value with each mask in turn (R72). -/
theorem find?_fits_eq_foldr {ks : List Tag} (hks : ∀ k ∈ ks, 2#4 ≤ k) (v : Word) :
    ks.find? (fits · v) = ks.foldr (fun k later => if v.toNat ≤ mask (lookup k).bitWidth then some k else later) none := by
  induction ks with
  | nil => rfl
  | cons k ks ih =>
    obtain ⟨hk, hrest⟩ := List.forall_mem_cons.1 hks
    rw [List.foldr_cons, ← ih hrest]
    by_cases hle : v.toNat ≤ mask (lookup k).bitWidth
    · rw [if_pos hle, List.find?_cons_of_pos (p := (fits · v)) ((fits_iff_of_two_le hk v).2 hle)]
    · rw [if_neg hle, List.find?_cons_of_neg (p := (fits · v)) (mt (fits_iff_of_two_le hk v).1 hle)]

/-- The scan answers what the ranges of R72 list: they end at the masks of the selectors from 2 to 15. -/
theorem leastFit_eq_leastFitTable (v : Word) : leastFit v = leastFitTable v.toNat := by
  have hscan : ∀ k ∈ scanOrder.drop 2, 2#4 ≤ k := by decide
  rw [leastFit, find?_fits_eq_foldr hscan]
  rfl

/-- Settles O3: by the width of each selector's fields; the least selector is found by comparing with each mask in turn. -/
theorem fitTestAndLeastSelector : Obligations.FitTestAndLeastSelector := fun v =>
  ⟨fun _ hk => fits_iff_of_two_le hk v,
    fun k hk => fits_iff_of_bitWidth_eq_zero ((bitWidth_eq_zero k).2 hk) v,
    fun _ _ hk hlt hfit => fits_of_lt hk hlt hfit,
    leastFit_eq_leastFitTable v,
    fun _ hk => ⟨fun hv => (fits_iff_of_two_le hk v).2 hv.le, fits_eq_false_of_toNat_eq_two_pow hk⟩⟩

end Sys2Proof.Machine
end

section
/-! PROOFS. The family 41_encode.md: eligibility and the selection (R82 to R85, R89, R145), how an ENCODE ends (R88, R106),
and PACK.0 to PACK.15 (R86, R90 to R105). -/

namespace Sys2Proof.Machine

/-! ### Eligibility -/

/-- What holds of the first `n` values holds of VIN[0 .. n-1]. -/
theorem forall_mem_take_iff {p : Word → Prop} {n : Nat} {vs : List Word} (hn : n ≤ vs.length) :
    (∀ v ∈ vs.take n, p v) ↔ ∀ j, j < n → p (vs.getD j 0#64) := by
  constructor
  · intro h j hj
    have hlen : j < vs.length := hj.trans_le hn
    rw [List.getD_eq_getElem vs 0#64 hlen]
    exact h _ (List.mem_take_iff_getElem.2 ⟨j, by omega, rfl⟩)
  · intro h v hv
    obtain ⟨j, hj, rfl⟩ := List.mem_take_iff_getElem.1 hv
    rw [← List.getD_eq_getElem vs 0#64 (by omega)]
    exact h j (by omega)

/-- All values are 1 exactly when each entry VIN[0 .. COUNT-1] is (R83). -/
theorem allOnes_iff_getD {vs : List Word} : AllOnes vs ↔ ∀ j, j < vs.length → vs.getD j 0#64 = 1#64 := by
  have h := forall_mem_take_iff (p := (· = 1#64)) (le_refl vs.length)
  rwa [List.take_length] at h

/-- The model's eligibility test is the formula of R82. -/
theorem eligible_iff_specEligible {k : Tag} {vs : List Word} : eligible k vs = true ↔ SpecEligible k vs := by
  by_cases hb : (lookup k).bitWidth = 0
  · rw [eligible_iff_of_bitWidth_eq_zero hb, allOnes_iff_getD]
    simp [SpecEligible, hb]
  · have hspec : SpecEligible k vs ↔ (lookup k).slotCount ≤ vs.length ∧
        ∀ j, j < (lookup k).slotCount → fits k (vs.getD j 0#64) = true := by
      simp [SpecEligible, hb, fits_iff_of_bitWidth_ne_zero hb, mask]
    rw [eligible_iff_of_bitWidth_ne_zero hb, hspec]
    exact and_congr_right forall_mem_take_iff

/-- Where R82's formula fails, the model's test does. -/
theorem eligible_eq_false_iff {k : Tag} {vs : List Word} : eligible k vs = false ↔ ¬ SpecEligible k vs := by
  rw [← eligible_iff_specEligible, Bool.not_eq_true]

/-- An eligible selector has no more slots than there are values (R82). -/
theorem slotCount_le_length {k : Tag} {vs : List Word} (h : eligible k vs = true) : (lookup k).slotCount ≤ vs.length :=
  (eligible_iff_specEligible.1 h).1

/-- Settles O13: the formula by the width of the fields; a selector with fields tests the values it packs and no other. -/
theorem eligibilityRule : Obligations.EligibilityRule := by
  refine fun k vs => ⟨eligible_iff_specEligible, fun us hb hvs hus htake => ?_⟩
  rw [Bool.eq_iff_iff, eligible_iff_of_bitWidth_ne_zero hb, eligible_iff_of_bitWidth_ne_zero hb, htake]
  exact and_congr_left fun _ => iff_of_true hus hvs

/-! ### PACK.k -/

/-- PACK.k on given values: the generic pack where k is eligible, refused where it is not (R86, U4). -/
theorem packAt_of_inputs {k : Tag} {s : State} {vs : List Word} (hi : Inputs s vs) :
    packAt k s = if eligible k vs then .next (pack k vs s) else .refused (.packNotEligible k) := by
  simp only [packAt, encodeInput_of_inputs hi]

/-- PACK.k on given values for which k is eligible (R86). -/
theorem packAt_of_eligible {k : Tag} {s : State} {vs : List Word} (hi : Inputs s vs) (h : eligible k vs = true) :
    packAt k s = .next (pack k vs s) := by
  rw [packAt_of_inputs hi, if_pos h]

/-- The PACK.k that an output word records is the generic pack at its tag (R63, R74). -/
theorem exec_decodeOutputWord (w : Word) (s : State) : exec (decodeOutputWord w) s = packAt (tagOf w) s := by
  unfold decodeOutputWord
  have hk := mem_scanOrder (tagOf w)
  generalize tagOf w = k at hk ⊢
  simp only [scanOrder, List.mem_cons, List.not_mem_nil, or_false] at hk
  rcases hk with rfl | rfl | rfl | rfl | rfl | rfl | rfl | rfl | rfl | rfl | rfl | rfl | rfl | rfl | rfl | rfl <;> rfl

/-- The tag of a tag over zeros (R57). -/
@[simp] theorem tagOf_tagBits (k : Tag) : tagOf (tagBits k) = k := by
  simpa [mkWord] using tagOf_mkWord k 0#60

/-- Settles O42: PACK.k tests eligibility as R82 writes it. -/
theorem packOutsidePreconditionIsRefused : Obligations.PackOutsidePreconditionIsRefused := by
  intro s vs k hi hk
  rw [exec_decodeOutputWord, tagOf_tagBits, packAt_of_inputs hi, eligible_eq_false_iff.2 hk]
  rfl

/-- Settles O39: on values that are all 1 the zero-width selectors ask for their number only, and the word is the tag. -/
theorem packOnes : Obligations.PackOnes := by
  refine fun s vs hi hones => ⟨fun hlen => ?_, fun hlen => ?_⟩
  · exact packAt_of_eligible (k := 0#4) hi ((eligible_iff_of_bitWidth_eq_zero rfl vs).2 ⟨hlen, hones⟩)
  · exact packAt_of_eligible (k := 1#4) hi ((eligible_iff_of_bitWidth_eq_zero rfl vs).2 ⟨hlen, hones⟩)

/-- An instruction that runs the generic pack at a selector with fields has the form of R92 to R105, with the numbers of the
selector's row in the table (R74, R86). -/
theorem packs_of_exec_eq_packAt {i : Instr} (k : Tag) (hexec : ∀ s, exec i s = packAt k s) (hb : (lookup k).bitWidth ≠ 0) :
    Packs i (tagBits k) (lookup k).slotCount (lookup k).bitWidth (mask (lookup k).bitWidth) := by
  intro s vs hi hn hle
  have h : eligible k vs = true := eligible_iff_specEligible.2 ⟨hn, fun h0 => absurd h0 hb, fun _ => hle⟩
  rw [hexec, packAt_of_eligible hi h, pack, packWord, if_neg hb, fieldBits_take _ _ vs hn]
  simp only [Nat.mul_comm]
  rfl

/-- Settles O40: the numbers of each rule are those of its row. -/
theorem packNarrowFields : Obligations.PackNarrowFields :=
  ⟨packs_of_exec_eq_packAt 2#4 (fun _ => rfl) (by decide), packs_of_exec_eq_packAt 3#4 (fun _ => rfl) (by decide),
    packs_of_exec_eq_packAt 4#4 (fun _ => rfl) (by decide), packs_of_exec_eq_packAt 5#4 (fun _ => rfl) (by decide),
    packs_of_exec_eq_packAt 6#4 (fun _ => rfl) (by decide)⟩

/-- Settles O41: the numbers of each rule are those of its row. -/
theorem packWideFields : Obligations.PackWideFields :=
  ⟨packs_of_exec_eq_packAt 7#4 (fun _ => rfl) (by decide), packs_of_exec_eq_packAt 8#4 (fun _ => rfl) (by decide),
    packs_of_exec_eq_packAt 9#4 (fun _ => rfl) (by decide), packs_of_exec_eq_packAt 10#4 (fun _ => rfl) (by decide),
    packs_of_exec_eq_packAt 11#4 (fun _ => rfl) (by decide), packs_of_exec_eq_packAt 12#4 (fun _ => rfl) (by decide),
    packs_of_exec_eq_packAt 13#4 (fun _ => rfl) (by decide), packs_of_exec_eq_packAt 14#4 (fun _ => rfl) (by decide),
    packs_of_exec_eq_packAt 15#4 (fun _ => rfl) (by decide)⟩

/-! ### How an ENCODE ends -/

/-- An ENCODE that selects ends with the word of the selector chosen (R84, R86). -/
theorem execEncode_of_select_some {s : State} {vs : List Word} {k : Tag} (hi : Inputs s vs) (hne : vs ≠ [])
    (hk : select vs = some k) :
    execEncode s = .next (encodeDone (packWord k vs) (BitVec.ofNat 8 (lookup k).slotCount) s) := by
  simp only [execEncode_of_inputs hi hne, hk]

/-- An ENCODE of at least one value with nothing to select raises OutOfRange (R85). -/
theorem execEncode_of_select_none {s : State} {vs : List Word} (hi : Inputs s vs) (hne : vs ≠ []) (hk : select vs = none) :
    execEncode s = .next (encodeRaised s) := by
  simp only [execEncode_of_inputs hi hne, hk]

/-- The word of a selector for which there are enough values, as R88 writes it. -/
theorem packWord_eq_or {k : Tag} {vs : List Word} (hn : (lookup k).slotCount ≤ vs.length) :
    packWord k vs = tagBits k ||| (if (lookup k).bitWidth = 0 then 0#64
      else orOver (lookup k).slotCount (fun j => (vs.getD j 0#64) <<< (j * (lookup k).bitWidth))) := by
  by_cases hb : (lookup k).bitWidth = 0
  · rw [packWord, if_pos hb, if_pos hb, BitVec.or_zero]
  · rw [packWord, if_neg hb, if_neg hb, fieldBits_take _ _ vs hn]

/-- No selector is eligible as R82 writes it exactly when the scan finds none (R85). -/
theorem select_none_iff_specEligible {vs : List Word} : select vs = none ↔ ∀ k : Tag, ¬ SpecEligible k vs :=
  select_none.trans (forall_congr' fun _ => eligible_eq_false_iff)

/-- Settles O15: the three exits, by what the scan finds. -/
theorem encodeWhole : Obligations.EncodeWhole := by
  refine fun s vs hi => ⟨?_, fun k hne hk hleast => ?_, fun hne hnone => ?_⟩
  · rintro rfl
    exact execEncode_of_inputs_nil hi
  · have hsel : select vs = some k :=
      select_eq (eligible_iff_specEligible.2 hk) fun k' hlt => eligible_eq_false_iff.2 (hleast k' hlt)
    rw [exec_encode, execEncode_of_select_some hi hne hsel, packWord_eq_or hk.1]
  · exact execEncode_of_select_none hi hne (select_none_iff_specEligible.2 hnone)

/-- What clearing the result registers leaves ENCODE is what it was given (R22). -/
theorem Inputs.clearResults {s : State} {vs : List Word} (hi : Inputs s vs) : Inputs (clearResults s) vs := hi

/-- Settles O18: one exit for each of the three things the scan can do; the word of the second has the selector as its tag,
which names the PACK.k. -/
theorem encodeEndsInOneOfEighteenWays : Obligations.EncodeEndsInOneOfEighteenWays := by
  intro s vs hi
  by_cases hne : vs = []
  · subst hne
    exact ⟨_, execEncode_of_inputs_nil hi, .inl ⟨rfl, rfl, rfl, rfl⟩⟩
  · cases hk : select vs with
    | none => exact ⟨_, execEncode_of_select_none hi hne hk, .inr (.inr ⟨hne, rfl, rfl, rfl, rfl⟩)⟩
    | some k =>
      have h := (select_some hk).1
      have htag := tagOf_packWord h
      have hexec := execEncode_of_select_some hi hne hk
      refine ⟨_, hexec, .inr (.inl ⟨k, packWord k vs, hne, rfl, rfl, htag, rfl, rfl, ?_⟩)⟩
      rw [exec_encode, hexec, exec_decodeOutputWord, htag, packAt_of_eligible hi.clearResults h]
      rfl

/-- The selector of a word that an ENCODE of at least one value returns is the word's tag (R57, R84). -/
theorem select_of_execEncode {s t : State} {vs : List Word} {w : Word} (hi : Inputs s vs) (hne : vs ≠ [])
    (h : execEncode s = .next t) (hw : t.wout = .written w) : select vs = some (tagOf w) := by
  cases hk : select vs with
  | none =>
    rw [execEncode_of_select_none hi hne hk] at h
    cases h
    cases hw
  | some k =>
    rw [execEncode_of_select_some hi hne hk] at h
    cases h
    cases hw
    rw [tagOf_packWord (select_some hk).1]

/-! ### Values out of range -/

/-- A value that an eligible selector stands for is below 2^60 (R82, R85). -/
theorem toNat_le_of_specEligible {k : Tag} {vs : List Word} {j : Nat} (h : SpecEligible k vs)
    (hj : j < (lookup k).slotCount) : (vs.getD j 0#64).toNat ≤ 2 ^ 60 - 1 := by
  obtain ⟨hn, hones, hle⟩ := h
  by_cases hb : (lookup k).bitWidth = 0
  · rw [hones hb j (hj.trans_le hn)]
    decide
  · exact (hle hb j hj).trans (mask_mono (bitWidth_le k))

/-- Selector 15 looks at VIN[0] alone (R85). -/
theorem specEligible_fifteen_iff (v : Word) (vs : List Word) : SpecEligible 15#4 (v :: vs) ↔ v.toNat ≤ 2 ^ 60 - 1 := by
  refine ⟨fun h => toNat_le_of_specEligible (j := 0) h (by decide), fun hv => ⟨?_, fun h0 => absurd h0 (by decide), ?_⟩⟩
  · exact Nat.succ_le_succ (Nat.zero_le vs.length)
  · intro _ j hj
    obtain rfl : j = 0 := Nat.lt_one_iff.1 hj
    exact hv

/-- A value of 2^60 or more rules out every selector that would pack it (R85). -/
theorem not_specEligible_of_le {k : Tag} {vs : List Word} {j : Nat} {u : Word} (hj : vs[j]? = some u) (hu : 2 ^ 60 ≤ u.toNat)
    (hlt : j < (lookup k).slotCount) : ¬ SpecEligible k vs := by
  intro h
  have hle := toNat_le_of_specEligible h hlt
  rw [List.getD_eq_getElem?_getD, hj, Option.getD_some] at hle
  omega

/-- No selector is eligible exactly when VIN[0] is 2^60 or more (R85). -/
theorem forall_not_specEligible_iff (v : Word) (vs : List Word) :
    (∀ k : Tag, ¬ SpecEligible k (v :: vs)) ↔ 2 ^ 60 ≤ v.toNat := by
  refine ⟨fun h => ?_, fun hv k => not_specEligible_of_le (j := 0) rfl hv (one_le_slotCount k)⟩
  have h15 := mt (specEligible_fifteen_iff v vs).2 (h 15#4)
  omega

/-- Settles O16: VIN[0] decides by selector 15; a later value out of range bounds the selector chosen. -/
theorem noEligibleSelectorRaises : Obligations.NoEligibleSelectorRaises := by
  refine fun v vs => ⟨specEligible_fifteen_iff v vs, forall_not_specEligible_iff v vs,
    fun k j u hj hu hlt => not_specEligible_of_le hj hu hlt, fun s hi hv => ?_, fun s j u hi hv hj hu => ?_⟩
  · exact execEncode_of_select_none hi (List.cons_ne_nil v vs)
      (select_none_iff_specEligible.2 ((forall_not_specEligible_iff v vs).2 hv))
  · cases hk : select (v :: vs) with
    | none => exact absurd ((forall_not_specEligible_iff v vs).1 (select_none_iff_specEligible.1 hk)) (Nat.not_le.2 hv)
    | some k =>
      have h := eligible_iff_specEligible.1 (select_some hk).1
      refine ⟨_, _, execEncode_of_select_some hi (List.cons_ne_nil v vs) hk, ?_, ?_⟩
      · rw [toNat_ofNat_slotCount]
        exact one_le_slotCount k
      · rw [toNat_ofNat_slotCount]
        exact Nat.not_lt.1 fun hlt => not_specEligible_of_le hj hu hlt h

/-! ### The selection -/

/-- The value 1 fits every selector (R72). -/
theorem fits_one : ∀ k : Tag, fits k 1#64 = true := by decide

/-- What fits a selector fits every later one (R72). -/
theorem fits_of_lt_of_fits {k k' : Tag} {v : Word} (hlt : k < k') (hfit : fits k v = true) : fits k' v = true := by
  by_cases hb : (lookup k).bitWidth = 0
  · rw [(fits_iff_of_bitWidth_eq_zero hb v).1 hfit]
    exact fits_one k'
  · exact fits_of_lt (BitVec.not_lt.1 (mt (bitWidth_eq_zero k).2 hb)) hlt hfit

/-- The values tested are among the values given. -/
theorem testedValues_subset (k : Tag) (vs : List Word) : testedValues k vs ⊆ vs := by
  by_cases hb : (lookup k).bitWidth = 0
  · rw [testedValues, if_pos hb]
    exact List.Subset.refl vs
  · rw [testedValues, if_neg hb]
    exact List.take_subset _ vs

/-- A later selector tests no value that an earlier one does not (R82). -/
theorem testedValues_subset_of_lt {k k' : Tag} (hlt : k < k') (vs : List Word) : testedValues k' vs ⊆ testedValues k vs := by
  by_cases hb : (lookup k).bitWidth = 0
  · have hall : testedValues k vs = vs := if_pos hb
    rw [hall]
    exact testedValues_subset k' vs
  · have hb' : (lookup k').bitWidth ≠ 0 :=
      fun h0 => hb ((bitWidth_eq_zero k).2 (BitVec.lt_trans hlt ((bitWidth_eq_zero k').1 h0)))
    rw [testedValues, testedValues, if_neg hb, if_neg hb']
    exact (List.take_sublist_take_left (slotCount_lt_of_lt k' k hlt).le).subset

/-- The test of R82: enough values, and those tested fit. -/
theorem eligible_iff {k : Tag} {vs : List Word} :
    eligible k vs = true ↔ (lookup k).slotCount ≤ vs.length ∧ ∀ v ∈ testedValues k vs, fits k v = true := by
  simp [eligible]

/-- Every selector after an eligible one is eligible: it needs fewer values, tests no others, and is wider (R89 (a)). -/
theorem eligible_of_lt {k k' : Tag} {vs : List Word} (hlt : k < k') (h : eligible k vs = true) : eligible k' vs = true := by
  obtain ⟨hn, hfit⟩ := eligible_iff.1 h
  exact eligible_iff.2 ⟨(slotCount_lt_of_lt k' k hlt).le.trans hn,
    fun v hv => fits_of_lt_of_fits hlt (hfit v (testedValues_subset_of_lt hlt vs hv))⟩

/-- On values that are all 1, a selector is eligible exactly when it has no more slots than there are values (R83). -/
theorem eligible_iff_of_allOnes {vs : List Word} (hones : AllOnes vs) (k : Tag) :
    eligible k vs = true ↔ (lookup k).slotCount ≤ vs.length := by
  refine eligible_iff.trans (and_iff_left fun v hv => ?_)
  rw [hones v (testedValues_subset k vs hv)]
  exact fits_one k

/-- Any number of ones is all ones. -/
theorem allOnes_replicate (n : Nat) : AllOnes (List.replicate n 1#64) := fun _ hv => List.eq_of_mem_replicate hv

/-- A scan is a chain of tests, in order. -/
theorem find?_eq_foldr (p : Tag → Bool) (ks : List Tag) :
    ks.find? p = ks.foldr (fun k later => if p k = true then some k else later) none := by
  induction ks with
  | nil => rfl
  | cons k ks ih =>
    rw [List.foldr_cons, ← ih, List.find?_cons]
    cases p k <;> rfl

/-- On values that are all 1 the scan answers kmin of their number, as the table of R89 lists it. -/
theorem select_of_allOnes {vs : List Word} (hones : AllOnes vs) (hne : vs ≠ []) :
    select vs = some (BitVec.ofNat 4 (kmin vs.length)) := by
  have hpos : 1 ≤ vs.length := List.length_pos_iff.2 hne
  have hscan : select vs =
      scanOrder.foldr (fun k later => if (lookup k).slotCount ≤ vs.length then some k else later) none := by
    rw [select, find?_eq_foldr]
    simp only [eligible_iff_of_allOnes hones]
  rw [hscan]
  generalize vs.length = c at hpos ⊢
  unfold kmin
  simp only [apply_ite (BitVec.ofNat 4), apply_ite (some : Tag → Option Tag)]
  have hlast : some (BitVec.ofNat 4 15) = if 1 ≤ c then some 15#4 else none := (if_pos hpos).symm
  rw [hlast]
  rfl

/-- kmin, as the table of R89 lists it, is a selector index. -/
theorem toNat_ofNat_kmin (c : Nat) : (BitVec.ofNat 4 (kmin c)).toNat = kmin c := by
  simp only [kmin, apply_ite (BitVec.ofNat 4), apply_ite BitVec.toNat]
  rfl

/-- As many ones as there are values select kmin of that number. -/
theorem select_replicate_one {c : Nat} (hc : 1 ≤ c) :
    select (List.replicate c 1#64) = some (BitVec.ofNat 4 (kmin c)) := by
  have hsel := select_of_allOnes (allOnes_replicate c) (List.ne_nil_of_length_pos (by rwa [List.length_replicate]))
  rwa [List.length_replicate] at hsel

/-- kmin(c) is the least selector with no more slots than `c` values: it is the one that `c` ones select (R89 (c)). -/
theorem kmin_isLeast {c : Nat} (hc : 1 ≤ c) :
    (lookup (BitVec.ofNat 4 (kmin c))).slotCount ≤ c ∧
      ∀ k : Tag, (lookup k).slotCount ≤ c → BitVec.ofNat 4 (kmin c) ≤ k := by
  have heligible := eligible_iff_of_allOnes (allOnes_replicate c)
  rw [List.length_replicate] at heligible
  obtain ⟨hk, hleast⟩ := select_some (select_replicate_one hc)
  refine ⟨(heligible _).1 hk, fun k hle => BitVec.not_lt.1 fun hlt => ?_⟩
  exact absurd ((heligible k).2 hle) (Bool.eq_false_iff.1 (hleast k hlt))

/-- Only values that are all 1 make a zero-width selector the one chosen (R83). -/
theorem allOnes_of_select {vs : List Word} {k : Tag} (hk : select vs = some k) (hb : (lookup k).bitWidth = 0) : AllOnes vs :=
  ((eligible_iff_of_bitWidth_eq_zero hb vs).1 (select_some hk).1).2

/-- Selector 0 is chosen exactly for at least 240 values, all of them 1 (R89 (d)). -/
theorem select_eq_zero_iff {vs : List Word} : select vs = some 0#4 ↔ 240 ≤ vs.length ∧ AllOnes vs := by
  refine ⟨fun hk => ⟨slotCount_le_length (select_some hk).1, allOnes_of_select hk rfl⟩, fun ⟨hlen, hones⟩ => ?_⟩
  have hne : vs ≠ [] := List.ne_nil_of_length_pos (by omega)
  rw [select_of_allOnes hones hne, kmin, if_pos hlen]

/-- Selector 1 is chosen exactly for 120 to 239 values, all of them 1 (R89 (d)). -/
theorem select_eq_one_iff {vs : List Word} :
    select vs = some 1#4 ↔ 120 ≤ vs.length ∧ vs.length ≤ 239 ∧ AllOnes vs := by
  constructor
  · intro hk
    have hones := allOnes_of_select hk rfl
    refine ⟨slotCount_le_length (select_some hk).1, ?_, hones⟩
    by_contra hlen
    rw [select_eq_zero_iff.2 ⟨by omega, hones⟩] at hk
    cases hk
  · rintro ⟨hlen, hlt, hones⟩
    have hne : vs ≠ [] := List.ne_nil_of_length_pos (by omega)
    rw [select_of_allOnes hones hne, kmin, if_neg (by omega), if_pos hlen]

/-- Settles O20: eligibility is upward closed, what ones select is kmin, and one value more turns a word of tag 15 into one
of tag 14. -/
theorem selectionFacts : Obligations.SelectionFacts := by
  refine ⟨fun vs k k' _ h hlt => eligible_of_lt hlt h,
    fun vs k hk => ⟨one_le_slotCount k, slotCount_le_length (select_some hk).1⟩, fun vs k hk => ?_, fun c hc => ?_,
    fun vs => ⟨select_eq_zero_iff, select_eq_one_iff⟩, fun vs k _ hnot hk => ?_, ?_⟩
  · have hle := slotCount_le_length (select_some hk).1
    have hleast := (kmin_isLeast ((one_le_slotCount k).trans hle)).2 k hle
    rwa [BitVec.le_def, toNat_ofNat_kmin] at hleast
  · exact ⟨_, toNat_ofNat_kmin c, kmin_isLeast hc⟩
  · have hb : (lookup k).bitWidth ≠ 0 := fun h0 => hnot (allOnes_of_select hk h0)
    exact ⟨BitVec.not_lt.1 (mt (bitWidth_eq_zero k).2 hb), slotCount_le_of_bitWidth_ne_zero k hb⟩
  · exact ⟨[1#64], 1#64, 15#4, 14#4, by decide, by decide, by decide⟩

/-- Settles O21: the tag of the word is the selector chosen, and the zero-width ones are chosen for ones only. -/
theorem degenerateSelectorsNeedAllOnes : Obligations.DegenerateSelectorsNeedAllOnes := by
  refine fun s vs hi hne => ⟨fun t w h hw => ⟨fun htag => ?_, fun htag => ?_⟩, fun hlen hones => ?_,
    fun hlen hlt hones => ?_⟩
  · have hk := select_of_execEncode hi hne h hw
    rw [htag, select_eq_zero_iff] at hk
    exact hk.symm
  · have hk := select_of_execEncode hi hne h hw
    rw [htag, select_eq_one_iff] at hk
    obtain ⟨hlen, hlt, hones⟩ := hk
    exact ⟨hones, hlen, hlt⟩
  · exact execEncode_of_select_some hi hne (select_eq_zero_iff.2 ⟨hlen, hones⟩)
  · exact execEncode_of_select_some hi hne (select_eq_one_iff.2 ⟨hlen, hlt, hones⟩)

/-- Ones before a value that is not 1 choose selector 2 as soon as they fill it, however many they are (R83). -/
theorem select_replicate_one_append {n : Nat} {v : Word} (hn : 60 ≤ n) (hv : v ≠ 1#64) :
    select (List.replicate n 1#64 ++ [v]) = some 2#4 := by
  refine select_eq ((eligible_iff_of_bitWidth_ne_zero (by decide) _).2 ⟨?_, fun u hu => ?_⟩) fun k hlt => ?_
  · change 60 ≤ _
    simp only [List.length_append, List.length_replicate]
    omega
  · have hlen : (lookup 2#4).slotCount ≤ (List.replicate n 1#64).length := by rwa [List.length_replicate]
    rw [List.take_append_of_le_length hlen] at hu
    rw [List.eq_of_mem_replicate (List.mem_of_mem_take hu)]
    exact fits_one _
  · refine Bool.eq_false_iff.2 fun h => hv ?_
    obtain ⟨-, hones⟩ := (eligible_iff_of_bitWidth_eq_zero ((bitWidth_eq_zero k).2 hlt) _).1 h
    exact hones v (List.mem_append_right _ List.mem_cons_self)

/-- Settles O22: one value that is not 1 rules out the zero-width selectors, wherever it stands; ones alone select kmin of
their number. -/
theorem allOnesRuleLooksAtWholeInput : Obligations.AllOnesRuleLooksAtWholeInput :=
  ⟨select_replicate_one_append (by decide) (by decide), rfl, select_replicate_one (by decide), rfl,
    select_replicate_one (by decide)⟩

end Sys2Proof.Machine
end

section
/-! PROOFS. The family 42_decode.md: what a DECODE writes and how it ends (R110 to R116, R136), the bit-field multiplexer
(R118), DECODE after ENCODE (R117), and UNPACK.0 to UNPACK.15 (R120 to R135). -/

namespace Sys2Proof.Machine

/-! ### UNPACK.k -/

/-- An UNPACK changes VOUT, PRODUCED and STATUS only, and PRODUCED is the slot count of the word's tag (R112, R114). -/
theorem unpack_frame (w : Word) (s : State) :
    unpack w s = { s with vout := (unpack w s).vout, produced := .written (BitVec.ofNat 8 (lookup (tagOf w)).slotCount),
                          status := .written 0#1 } := by
  rw [← length_unpackValues]
  rfl

/-- A slot of a zero-width tag is the constant 1 (R56). -/
theorem slotValue_of_eq_zero {b : Nat} (hb : b = 0) (i : Nat) (w : Word) : slotValue b i w = 1#64 := by
  rw [slotValue, if_pos hb]

/-- A slot of a tag with fields is the word shifted right and masked (R56). -/
theorem slotValue_of_ne_zero {b : Nat} (hb : b ≠ 0) (i : Nat) (w : Word) :
    slotValue b i w = (w >>> (i * b)) &&& BitVec.ofNat 64 (mask b) := by
  rw [slotValue, if_neg hb]

/-- The mask of `b` bits as the rules write it, `(1 << b) - 1` (R112). -/
theorem one_shiftLeft_sub_one (b : Nat) : (1#64 <<< b) - 1#64 = BitVec.ofNat 64 (mask b) := by
  have hpow : 1#64 <<< b = BitVec.ofNat 64 (2 ^ b) := BitVec.eq_of_toNat_eq (by simp [Nat.shiftLeft_eq])
  rw [hpow, mask, ← BitVec.ofNat_sub_ofNat_of_le _ _ (by decide) (Nat.two_pow_pos b)]

/-- An instruction that runs the generic unpack at a zero-width tag has the form of R120 and R121 (R74, R112). -/
theorem unpacksOnes_of_exec_eq_unpack {i : Payload → Instr} (k : Tag)
    (hexec : ∀ s p, exec (i p) s = .next (unpack (mkWord k p) s)) (hb : (lookup k).bitWidth = 0) :
    UnpacksOnes i (lookup k).slotCount := by
  intro s p
  refine ⟨_, hexec s p, ?_, fun j => ?_⟩
  · simpa only [tagOf_mkWord] using unpack_frame (mkWord k p) s
  · rw [read_unpack, tagOf_mkWord, slotValue_of_eq_zero hb]

/-- An instruction that runs the generic unpack at a tag with fields has the form of R122 to R135, with the numbers of the
tag's row in the table (R74, R112). -/
theorem unpacks_of_exec_eq_unpack {i : Payload → Instr} (k : Tag)
    (hexec : ∀ s p, exec (i p) s = .next (unpack (mkWord k p) s)) (hb : (lookup k).bitWidth ≠ 0) :
    Unpacks i (tagBits k) (lookup k).slotCount (lookup k).bitWidth (BitVec.ofNat 64 (mask (lookup k).bitWidth)) := by
  intro s p
  refine ⟨_, hexec s p, ?_, fun j => ?_⟩
  · simpa only [tagOf_mkWord] using unpack_frame (mkWord k p) s
  · rw [read_unpack, tagOf_mkWord, slotValue_of_ne_zero hb, mkWord, Nat.mul_comm]

/-- Settles O43: the zero-width tags are 0 and 1, with 240 and 120 slots. -/
theorem unpackOnes : Obligations.UnpackOnes :=
  ⟨unpacksOnes_of_exec_eq_unpack 0#4 (fun _ _ => rfl) rfl, unpacksOnes_of_exec_eq_unpack 1#4 (fun _ _ => rfl) rfl⟩

/-- Settles O44: the numbers of each rule are those of its row. -/
theorem unpackNarrowFields : Obligations.UnpackNarrowFields :=
  ⟨unpacks_of_exec_eq_unpack 2#4 (fun _ _ => rfl) (by decide), unpacks_of_exec_eq_unpack 3#4 (fun _ _ => rfl) (by decide),
    unpacks_of_exec_eq_unpack 4#4 (fun _ _ => rfl) (by decide), unpacks_of_exec_eq_unpack 5#4 (fun _ _ => rfl) (by decide),
    unpacks_of_exec_eq_unpack 6#4 (fun _ _ => rfl) (by decide)⟩

/-- Settles O45: the numbers of each rule are those of its row. -/
theorem unpackWideFields : Obligations.UnpackWideFields :=
  ⟨unpacks_of_exec_eq_unpack 7#4 (fun _ _ => rfl) (by decide), unpacks_of_exec_eq_unpack 8#4 (fun _ _ => rfl) (by decide),
    unpacks_of_exec_eq_unpack 9#4 (fun _ _ => rfl) (by decide), unpacks_of_exec_eq_unpack 10#4 (fun _ _ => rfl) (by decide),
    unpacks_of_exec_eq_unpack 11#4 (fun _ _ => rfl) (by decide), unpacks_of_exec_eq_unpack 12#4 (fun _ _ => rfl) (by decide),
    unpacks_of_exec_eq_unpack 13#4 (fun _ _ => rfl) (by decide), unpacks_of_exec_eq_unpack 14#4 (fun _ _ => rfl) (by decide),
    unpacks_of_exec_eq_unpack 15#4 (fun _ _ => rfl) (by decide)⟩

/-! ### What a DECODE writes, and how it ends -/

/-- Settles O26: a DECODE is the generic unpack on the cleared state; the mask of a slot is the one R112 writes. -/
theorem decodeWritesItsSlots : Obligations.DecodeWritesItsSlots := by
  intro s w hw
  refine ⟨_, execDecode_of_win hw, unpack_frame w (clearResults s), fun i => ?_⟩
  rw [read_unpack, one_shiftLeft_sub_one]
  rfl

/-- The UNPACK.k that a word decodes to is the one its tag numbers (R63, R111). -/
theorem getElem?_unpack_eq_decodeInputWord (w : Word) :
    [Instr.unpack0 (payloadOf w), .unpack1 (payloadOf w), .unpack2 (payloadOf w), .unpack3 (payloadOf w),
      .unpack4 (payloadOf w), .unpack5 (payloadOf w), .unpack6 (payloadOf w), .unpack7 (payloadOf w),
      .unpack8 (payloadOf w), .unpack9 (payloadOf w), .unpack10 (payloadOf w), .unpack11 (payloadOf w),
      .unpack12 (payloadOf w), .unpack13 (payloadOf w), .unpack14 (payloadOf w), .unpack15 (payloadOf w)][(tagOf w).toNat]? =
        some (decodeInputWord w) := by
  unfold decodeInputWord
  have hlt : (tagOf w).toNat < 16 := (tagOf w).isLt
  generalize (tagOf w).toNat = k at hlt ⊢
  interval_cases k <;> rfl

/-- Settles O27: a DECODE and the UNPACK.k of its word's tag are both the generic unpack on the cleared state. -/
theorem decodeEndsInOneOfSixteenWays : Obligations.DecodeEndsInOneOfSixteenWays := by
  intro s w hw
  have hexec : exec .decode s = .next (unpack w (clearResults s)) := execDecode_of_win hw
  have hn := toNat_ofNat_slotCount (tagOf w)
  refine ⟨_, payloadOf w, BitVec.ofNat 8 (lookup (tagOf w)).slotCount, hexec,
    hexec.trans (exec_decodeInputWord w _).symm, getElem?_unpack_eq_decodeInputWord w, by simp, hn, ?_, rfl, fun i hi => ?_⟩
  · rw [hn]
    exact one_le_slotCount _
  · rw [hn] at hi
    exact ⟨_, read_unpack_of_lt hi _⟩

/-! ### The values a DECODE writes -/

/-- No slot value is above 2^60 - 1 (R113). -/
theorem toNat_slotValue_le_max (k : Tag) (i : Nat) (w : Word) : (slotValue (lookup k).bitWidth i w).toNat ≤ 2 ^ 60 - 1 := by
  by_cases hb : (lookup k).bitWidth = 0
  · rw [slotValue_of_eq_zero hb]
    decide
  · exact (toNat_slotValue_le hb i w).trans (mask_mono (bitWidth_le k))

/-- The bits of a slot that is in a word are payload bits in use (R57). -/
theorem slot_bit_lt {n b i q : Nat} (hi : i < n) (hq : q < b) : i * b + q < n * b := by
  calc i * b + q < i * b + b := Nat.add_lt_add_left hq _
    _ = (i + 1) * b := (Nat.succ_mul i b).symm
    _ ≤ n * b := Nat.mul_le_mul_right b hi

/-- Two words with one tag and the same bits in their slots have the same values (R113). -/
theorem unpackValues_eq_of_getLsbD_eq {w w' : Word} (htag : tagOf w = tagOf w')
    (hbits : ∀ p, p < (lookup (tagOf w)).slotCount * (lookup (tagOf w)).bitWidth → w.getLsbD p = w'.getLsbD p) :
    unpackValues w = unpackValues w' := by
  by_cases hb : (lookup (tagOf w)).bitWidth = 0
  · rw [unpackValues_of_bitWidth_eq_zero hb, unpackValues_of_bitWidth_eq_zero (htag ▸ hb), htag]
  · rw [unpackValues, unpackValues, ← htag]
    refine List.map_congr_left fun i hi => BitVec.eq_of_getLsbD_eq fun q _ => ?_
    rw [getLsbD_slotValue hb (bitWidth_le _), getLsbD_slotValue hb (bitWidth_le _)]
    by_cases hq : q < (lookup (tagOf w)).bitWidth
    · rw [hbits _ (slot_bit_lt (List.mem_range.1 hi) hq)]
    · rw [decide_eq_false hq, Bool.false_and, Bool.false_and]

/-- Words whose payloads agree modulo `2 ^ m` agree on the payload bits below `m`. -/
theorem getLsbD_eq_of_payloadOf_mod_eq {w w' : Word} {m p : Nat} (hm : m ≤ 60) (hp : p < m)
    (hmod : (payloadOf w).toNat % 2 ^ m = (payloadOf w').toNat % 2 ^ m) : w.getLsbD p = w'.getLsbD p := by
  have hbit := congrArg (Nat.testBit · p) hmod
  simp only [Nat.testBit_mod_two_pow, hp, decide_true, Bool.true_and] at hbit
  rw [← getLsbD_payloadOf (hp.trans_le hm) w, ← getLsbD_payloadOf (hp.trans_le hm) w']
  exact hbit

/-- Settles O28: the bounds of each slot value, which is made of payload bits in use. -/
theorem decodedValuesInRange : Obligations.DecodedValuesInRange := by
  refine ⟨fun s t w i hw h hi => ?_, fun w w' htag hmod => ?_⟩
  · obtain rfl : unpack w (clearResults s) = t := by simpa [execDecode_of_win hw] using h
    exact ⟨_, read_unpack_of_lt hi _, toNat_slotValue_le_max _ i w, fun hb => slotValue_of_eq_zero hb i w,
      fun hb => toNat_slotValue_le hb i w⟩
  · exact unpackValues_eq_of_getLsbD_eq htag fun p hp =>
      getLsbD_eq_of_payloadOf_mod_eq (slotCount_mul_bitWidth_le _) hp hmod

/-! ### The bit-field multiplexer -/

/-- Slot `i` is a slot of exactly the tags that R118's table lists: in each row of SELTAB, the slot count is one above the
last index that the table gives the row's tag. -/
theorem lt_slotCount_iff_le_lastTagOfSlot (k : Tag) {i : Nat} (hi : i < 240) :
    i < (lookup k).slotCount ↔ k.toNat ≤ lastTagOfSlot i := by
  rw [lastTagOfSlot]
  simp only [apply_ite (k.toNat ≤ ·)]
  have hk := mem_scanOrder k
  simp only [scanOrder, List.mem_cons, List.not_mem_nil, or_false] at hk
  rcases hk with rfl | rfl | rfl | rfl | rfl | rfl | rfl | rfl | rfl | rfl | rfl | rfl | rfl | rfl | rfl | rfl <;>
    simp [lookup, selTab] <;> omega

/-- A slot value as a number: the word divided and reduced (R118). -/
theorem toNat_slotValue {b : Nat} (hb : b ≠ 0) (hle : b ≤ 60) (i : Nat) (w : Word) :
    (slotValue b i w).toNat = w.toNat / 2 ^ (i * b) % 2 ^ b := by
  have hmask : (BitVec.ofNat 64 (mask b)).toNat = 2 ^ b - 1 := by
    have hpow : 2 ^ b ≤ 2 ^ 60 := Nat.pow_le_pow_right (by decide) hle
    rw [BitVec.toNat_ofNat, mask]
    exact Nat.mod_eq_of_lt (by omega)
  rw [slotValue_of_ne_zero hb, BitVec.toNat_and, hmask, Nat.and_two_pow_sub_one_eq_mod, BitVec.toNat_ushiftRight,
    Nat.shiftRight_eq_div_pow]

/-- Each value that a word unpacks to, as a number: the constant 1 or a slice of the word (R118). -/
theorem getElem?_unpackValues_toNat (w : Word) (i : Nat) :
    (unpackValues w)[i]?.map BitVec.toNat =
      if i < (lookup (tagOf w)).slotCount then
        some (if (lookup (tagOf w)).bitWidth = 0 then 1
          else w.toNat / 2 ^ (i * (lookup (tagOf w)).bitWidth) % 2 ^ (lookup (tagOf w)).bitWidth)
      else none := by
  rw [getElem?_unpackValues, apply_ite (Option.map BitVec.toNat)]
  by_cases hb : (lookup (tagOf w)).bitWidth = 0
  · rw [if_pos hb, slotValue_of_eq_zero hb]
    rfl
  · rw [if_neg hb, Option.map_some, toNat_slotValue hb (bitWidth_le _)]
    rfl

/-- A payload bit in use is the bit that its slot has there (R56, R118). -/
theorem getLsbD_slotValue_div_mod {b : Nat} (hb : b ≠ 0) (hle : b ≤ 60) (w : Word) (p : Nat) :
    (slotValue b (p / b) w).getLsbD (p % b) = w.getLsbD p := by
  rw [getLsbD_slotValue hb hle, decide_eq_true (Nat.mod_lt p (Nat.pos_of_ne_zero hb)), Bool.true_and, Nat.div_add_mod']

/-- A payload bit in use of a packed word is the bit that the value of its slot has there (R57, R118). -/
theorem getLsbD_packWord_of_lt {k : Tag} {vs : List Word} {p : Nat} (h : eligible k vs = true)
    (hb : (lookup k).bitWidth ≠ 0) (hp : p < (lookup k).slotCount * (lookup k).bitWidth) :
    (packWord k vs).getLsbD p = (vs.getD (p / (lookup k).bitWidth) 0#64).getLsbD (p % (lookup k).bitWidth) := by
  have hpos := Nat.pos_of_ne_zero hb
  have hbit := getLsbD_packWord_slot h ((Nat.div_lt_iff_lt_mul hpos).2 hp) (Nat.mod_lt p hpos)
  rwa [Nat.div_add_mod'] at hbit

/-- ENCODE drives the unused payload bits 0 (R55, R118). -/
theorem getLsbD_packWord_of_le {k : Tag} {vs : List Word} {p : Nat} (h : eligible k vs = true) (hp : p < 60)
    (hle : (lookup k).slotCount * (lookup k).bitWidth ≤ p) : (packWord k vs).getLsbD p = false := by
  rw [← getLsbD_payloadOf hp]
  exact getLsbD_payloadOf_of_canonical (canonical_packWord h) ((tagOf_packWord h).symm ▸ hle)

/-- Settles O29: the table by the order of the slot counts, the values as numbers, and the bits in both directions. -/
theorem multiplexerView : Obligations.MultiplexerView := by
  refine ⟨fun k i hi => lt_slotCount_iff_le_lastTagOfSlot k hi, getElem?_unpackValues_toNat, fun w p hb hp => ?_,
    fun k vs p h hb hp => ?_⟩
  · have hslot := (Nat.div_lt_iff_lt_mul (Nat.pos_of_ne_zero hb)).2 hp
    exact ⟨_, by rw [getElem?_unpackValues, if_pos hslot], getLsbD_slotValue_div_mod hb (bitWidth_le _) w p⟩
  · by_cases hused : p < (lookup k).slotCount * (lookup k).bitWidth
    · rw [if_pos hused, getLsbD_packWord_of_lt h hb hused]
    · rw [if_neg hused, getLsbD_packWord_of_le h hp (Nat.not_lt.1 hused)]

/-! ### DECODE undoes ENCODE -/

/-- An UNPACK of the word of an eligible selector puts the values packed into VOUT (R112, R117). -/
theorem read_unpack_packWord {k : Tag} {vs : List Word} {i : Nat} (h : eligible k vs = true)
    (hi : i < (lookup k).slotCount) (s : State) : Memory.read (unpack (packWord k vs) s).vout i = vs[i]? := by
  have hslot : i < (lookup (tagOf (packWord k vs))).slotCount := by rwa [tagOf_packWord h]
  calc Memory.read (unpack (packWord k vs) s).vout i
      = (unpackValues (packWord k vs))[i]? := by rw [read_unpack_of_lt hslot, getElem?_unpackValues, if_pos hslot]
    _ = vs[i]? := by rw [unpackValues_packWord h, List.getElem?_take_of_lt hi]

/-- The two ways an ENCODE can leave a word: the zero word with nothing consumed, or the word of an eligible selector with
its slot count (R81, R86). -/
theorem word_of_execEncode {s t : State} {vs : List Word} {w : Word} {m : BitVec 8} (hi : Inputs s vs)
    (h : execEncode s = .next t) (hw : t.wout = .written w) (hm : t.consumed = .written m) :
    (w = 0#64 ∧ m = 0#8) ∨
      ∃ k, eligible k vs = true ∧ w = packWord k vs ∧ m = BitVec.ofNat 8 (lookup k).slotCount := by
  obtain ⟨us, hus, hend⟩ := execEncode_next h
  obtain rfl : vs = us := by simpa [encodeInput_of_inputs hi] using hus
  obtain ⟨-, rfl⟩ | ⟨k, -, hk, rfl⟩ | ⟨-, -, rfl⟩ := hend
  · cases hw
    cases hm
    exact .inl ⟨rfl, rfl⟩
  · cases hw
    cases hm
    exact .inr ⟨k, (select_some hk).1, rfl, rfl⟩
  · cases hw

/-- Settles O31: unpacking the word of an eligible selector gives the values packed; the zero word has tag 0, whose slots are
240 ones. -/
theorem decodeUndoesEncode : Obligations.DecodeUndoesEncode := by
  intro s t vs w m hi h hw hm s' hw'
  refine ⟨_, execDecode_of_win hw', ?_⟩
  obtain ⟨rfl, rfl⟩ | ⟨k, hk, rfl, rfl⟩ := word_of_execEncode hi h hw hm
  · exact ⟨fun hpos => absurd hpos (by decide), fun _ => ⟨rfl, rfl, fun i hlt => read_unpack_of_lt hlt _⟩⟩
  · rw [toNat_ofNat_slotCount]
    refine ⟨fun _ => ⟨?_, fun i hlt => read_unpack_packWord hk hlt _⟩, fun hzero => ?_⟩
    · rw [unpack_produced, length_unpackValues, tagOf_packWord hk]
    · exact absurd hzero (Nat.one_le_iff_ne_zero.1 (one_le_slotCount k))

end Sys2Proof.Machine
end

section
/-! PROOFS. The family 43_stream_and_laws.md: the empty input (R147), selector maximality (R144), the boundary bit widths
(R146), and the host's loops over a stream: progress, round trip and errors (R142, R143, R149). -/

namespace Sys2Proof.Machine

/-! ### The empty input and selector maximality -/

/-- With COUNT = 0, ENCODE is given no values, whatever VIN holds (R147). -/
theorem encodeInput_of_count_zero {s : State} (hc : s.count = .written 0#64) : encodeInput s = .ok [] := by
  have hnone : Memory.firstN s.vin (0#64).toNat = some [] := by simp [Memory.firstN]
  simp only [encodeInput, hc, hnone]

/-- Settles O14: an ENCODE that is given no values ends with the zero word and nothing consumed. -/
theorem emptyEncodeResult : Obligations.EmptyEncodeResult := by
  intro s hc
  rw [exec_encode, execEncode, encodeInput_of_count_zero hc]
  rfl

/-- Of two selectors, one that is not smaller has no more slots (R13). -/
theorem slotCount_le_of_le {k k' : Tag} (hle : k ≤ k') : (lookup k').slotCount ≤ (lookup k).slotCount := by
  obtain hlt | rfl := (by bv_omega : k < k' ∨ k = k')
  · exact (slotCount_lt_of_lt k' k hlt).le
  · exact le_rfl

/-- Settles O19: the word's tag is the selector chosen, and slot counts fall along the scan. -/
theorem selectorMaximality : Obligations.SelectorMaximality := by
  intro s t vs w hi hne h hw
  obtain ⟨hk, hleast⟩ := select_some (select_of_execEncode hi hne h hw)
  refine ⟨eligible_iff_specEligible.1 hk, fun k' hlt => eligible_eq_false_iff.1 (hleast k' hlt), fun k' hk' => ?_⟩
  exact slotCount_le_of_le (BitVec.not_lt.1 fun hlt => eligible_eq_false_iff.1 (hleast k' hlt) hk')

/-- Nothing is chosen exactly when the first value is 2^60 or more (R85). -/
theorem select_cons_eq_none_iff {v : Word} {vs : List Word} : select (v :: vs) = none ↔ 2 ^ 60 ≤ v.toNat :=
  select_none_iff_specEligible.trans (forall_not_specEligible_iff v vs)

/-! ### Boundary bit widths -/

/-- As many values as selector k has slots, each the largest that fits it (R146). -/
def maxValues (k : Tag) : List Word :=
  List.replicate (lookup k).slotCount (BitVec.ofNat 64 (2 ^ (lookup k).bitWidth - 1))

/-- The same values with the one at index `i` raised to `2^b_k` (R146). -/
def raisedValues (k : Tag) (i : Nat) : List Word :=
  (maxValues k).set i (BitVec.ofNat 64 (2 ^ (lookup k).bitWidth))

@[simp] theorem length_maxValues (k : Tag) : (maxValues k).length = (lookup k).slotCount := List.length_replicate

@[simp] theorem length_raisedValues (k : Tag) (i : Nat) : (raisedValues k i).length = (lookup k).slotCount := by
  rw [raisedValues, List.length_set, length_maxValues]

/-- `2^b_k` is a 64-bit value (R13). -/
theorem toNat_ofNat_two_pow_bitWidth (k : Tag) :
    (BitVec.ofNat 64 (2 ^ (lookup k).bitWidth)).toNat = 2 ^ (lookup k).bitWidth := by revert k; decide

/-- So is `2^b_k - 1`. -/
theorem toNat_ofNat_two_pow_bitWidth_sub_one (k : Tag) :
    (BitVec.ofNat 64 (2 ^ (lookup k).bitWidth - 1)).toNat = 2 ^ (lookup k).bitWidth - 1 := by revert k; decide

/-- The bits of `2^m - 1` are ones below `m`. -/
theorem getLsbD_ofNat_two_pow_sub_one {n p : Nat} (m : Nat) (hp : p < n) :
    (BitVec.ofNat n (2 ^ m - 1)).getLsbD p = decide (p < m) := by
  rw [BitVec.getLsbD_ofNat, Nat.testBit_two_pow_sub_one, decide_eq_true hp, Bool.true_and]

/-- A list of n_k values leaves no selector before k enough of them (R82). -/
theorem eligible_eq_false_of_lt {k k' : Tag} {vs : List Word} (hlen : vs.length = (lookup k).slotCount) (hlt : k' < k) :
    eligible k' vs = false :=
  eligible_eq_false_of_length_lt (hlen ▸ slotCount_lt_of_lt k k' hlt)

/-- The largest values that fit selector k make it eligible (R146). -/
theorem eligible_maxValues {k : Tag} (hk : 2#4 ≤ k) : eligible k (maxValues k) = true := by
  refine (eligible_iff_of_bitWidth_ne_zero (bitWidth_ne_zero_of_two_le hk) _).2 ⟨(length_maxValues k).ge, fun v hv => ?_⟩
  rw [List.eq_of_mem_replicate (List.mem_of_mem_take hv), fits_iff_of_two_le hk]
  exact (toNat_ofNat_two_pow_bitWidth_sub_one k).le

/-- They select it: every smaller selector needs more values (R146). -/
theorem select_maxValues {k : Tag} (hk : 2#4 ≤ k) : select (maxValues k) = some k :=
  select_eq (eligible_maxValues hk) fun _ hlt => eligible_eq_false_of_lt (length_maxValues k) hlt

/-- Their word has every field bit 1 and every unused bit 0 (R146). -/
theorem packWord_maxValues {k : Tag} (hk : 2#4 ≤ k) :
    packWord k (maxValues k) =
      mkWord k (BitVec.ofNat 60 (2 ^ ((lookup k).slotCount * (lookup k).bitWidth) - 1)) := by
  have h := eligible_maxValues hk
  have hb := bitWidth_ne_zero_of_two_le hk
  have hpayload : payloadOf (packWord k (maxValues k)) =
      BitVec.ofNat 60 (2 ^ ((lookup k).slotCount * (lookup k).bitWidth) - 1) := by
    refine BitVec.eq_of_getLsbD_eq fun p hp => ?_
    rw [getLsbD_payloadOf hp, getLsbD_ofNat_two_pow_sub_one _ hp]
    by_cases hused : p < (lookup k).slotCount * (lookup k).bitWidth
    · have hslot := (Nat.div_lt_iff_lt_mul (Nat.pos_of_ne_zero hb)).2 hused
      have hbit := Nat.mod_lt p (Nat.pos_of_ne_zero hb)
      rw [getLsbD_packWord_of_lt h hb hused, maxValues, List.getD_replicate _ hslot,
        getLsbD_ofNat_two_pow_sub_one _ (hbit.trans_le ((bitWidth_le k).trans (by decide))), decide_eq_true hbit,
        decide_eq_true hused]
    · rw [getLsbD_packWord_of_le h hp (Nat.not_lt.1 hused), decide_eq_false hused]
  rw [← hpayload]
  simpa only [tagOf_packWord h] using (mkWord_tagOf_payloadOf (packWord k (maxValues k))).symm

/-- With one value raised to `2^b_k`, neither selector k nor any before it is eligible (R146). -/
theorem eligible_raisedValues {k k' : Tag} {i : Nat} (hk : 2#4 ≤ k) (hi : i < (lookup k).slotCount) (hle : k' ≤ k) :
    eligible k' (raisedValues k i) = false := by
  obtain hlt | rfl := (by bv_omega : k' < k ∨ k' = k)
  · exact eligible_eq_false_of_lt (length_raisedValues k i) hlt
  · refine Bool.eq_false_iff.2 fun h => ?_
    obtain ⟨-, hfit⟩ := (eligible_iff_of_bitWidth_ne_zero (bitWidth_ne_zero_of_two_le hk) _).1 h
    rw [← length_raisedValues k' i, List.take_length] at hfit
    have hmem : BitVec.ofNat 64 (2 ^ (lookup k').bitWidth) ∈ raisedValues k' i :=
      List.mem_set (by rwa [length_maxValues]) _
    exact Bool.eq_false_iff.1 (fits_eq_false_of_toNat_eq_two_pow hk (toNat_ofNat_two_pow_bitWidth k')) (hfit _ hmem)

/-- None of them is above `2^b_k`. -/
theorem toNat_le_of_mem_raisedValues {k : Tag} {i : Nat} {v : Word} (hv : v ∈ raisedValues k i) :
    v.toNat ≤ 2 ^ (lookup k).bitWidth := by
  obtain hmax | rfl := List.mem_or_eq_of_mem_set hv
  · rw [List.eq_of_mem_replicate hmax, toNat_ofNat_two_pow_bitWidth_sub_one]
    exact Nat.sub_le _ 1
  · exact (toNat_ofNat_two_pow_bitWidth k).le

/-- There is at least one of them (R19). -/
theorem raisedValues_ne_nil (k : Tag) (i : Nat) : raisedValues k i ≠ [] :=
  List.ne_nil_of_length_pos ((length_raisedValues k i).symm ▸ one_le_slotCount k)

/-- Every selector but the last has fields narrower than the payload (R11). -/
theorem bitWidth_lt_of_ne_fifteen : ∀ k : Tag, k ≠ 15#4 → (lookup k).bitWidth < 60 := by decide

/-- For k below 15 they select a later selector (R146). -/
theorem select_raisedValues {k : Tag} {i : Nat} (hk : 2#4 ≤ k) (hi : i < (lookup k).slotCount) (hne : k ≠ 15#4) :
    ∃ k', select (raisedValues k i) = some k' ∧ k < k' := by
  obtain ⟨v, vs, hvs⟩ := List.exists_cons_of_ne_nil (raisedValues_ne_nil k i)
  have hv : v.toNat < 2 ^ 60 :=
    (toNat_le_of_mem_raisedValues (hvs ▸ List.mem_cons_self)).trans_lt
      (Nat.pow_lt_pow_right (by decide) (bitWidth_lt_of_ne_fifteen k hne))
  have hsome : select (raisedValues k i) ≠ none := by
    rw [hvs]
    exact mt select_cons_eq_none_iff.1 (Nat.not_le.2 hv)
  obtain ⟨k', hk'⟩ := Option.ne_none_iff_exists'.1 hsome
  refine ⟨k', hk', BitVec.not_le.1 fun hle => ?_⟩
  exact Bool.eq_false_iff.1 (eligible_raisedValues hk hi hle) (select_some hk').1

/-- For k = 15 they select nothing (R146). -/
theorem select_raisedValues_fifteen {i : Nat} (hi : i < (lookup 15#4).slotCount) : select (raisedValues 15#4 i) = none :=
  select_none.2 fun k' => eligible_raisedValues (by decide) hi (by revert k'; decide)

/-- Settles O23: n_k values leave no smaller selector enough of them; the largest that fit fill every field with ones, and one
value more than that rules selector k out. -/
theorem boundaryBitWidths : Obligations.BoundaryBitWidths := by
  refine fun k s hk => ⟨fun (hi : Inputs s (maxValues k)) => ?_, fun i hlt (hi : Inputs s (raisedValues k i)) =>
    ⟨?_, fun hne => ?_⟩⟩
  · have hnil : maxValues k ≠ [] := List.ne_nil_of_length_pos ((length_maxValues k).symm ▸ one_le_slotCount k)
    rw [exec_encode, execEncode_of_select_some hi hnil (select_maxValues hk), packWord_maxValues hk]
  · rintro rfl
    exact execEncode_of_select_none hi (raisedValues_ne_nil _ i) (select_raisedValues_fifteen hlt)
  · obtain ⟨k', hsel, hlater⟩ := select_raisedValues hk hlt hne
    refine ⟨_, _, execEncode_of_select_some hi (raisedValues_ne_nil k i) hsel, ?_⟩
    rwa [tagOf_packWord (select_some hsel).1]

/-! ### One turn of ENCODE_STREAM -/

/-- The state in which the host presents all that is left of a sequence to ENCODE (R140). -/
def presentRest (rest : List Word) (s : State) : State :=
  placeCommand (.encode (BitVec.ofNat 64 rest.length) rest) s

/-- A step of an idle engine presented with what is left is an ENCODE of it. -/
theorem step_presentRest {s : State} (hp : s.phase = .idle) (rest : List Word) :
    step (presentRest rest s) = execEncode (presentRest rest s) :=
  step_of_op_written (op := 0#1) hp rfl

/-- What the host reads after an ENCODE without error (R187). -/
theorem reads_encodeDone (w : Word) (n : BitVec 8) (s : State) :
    readStatus (encodeDone w n s) = .next 0#1 ∧ readWout (encodeDone w n s) = .next w ∧
      readConsumed (encodeDone w n s) = .next n :=
  ⟨rfl, rfl, rfl⟩

/-- What the host reads after an ENCODE that raises OutOfRange (R187). -/
theorem readStatus_encodeRaised (s : State) : readStatus (encodeRaised s) = .next 1#1 := rfl

/-- ERR is bit 0 of STATUS (R20). -/
theorem errOf_eq : errOf 0#1 = false ∧ errOf 1#1 = true := ⟨rfl, rfl⟩

/-- A turn with something to select appends the selector's word and goes on after the values packed (R140). -/
theorem encodeLoop_of_select_some {fuel pos : Nat} {s : State} {v : Word} {vs words : List Word} {k : Tag}
    (hp : s.phase = .idle) (hlen : (v :: vs).length < 2 ^ 64) (hk : select (v :: vs) = some k) :
    encodeLoop (fuel + 1) s (v :: vs) pos words =
      encodeLoop fuel
        (encodeDone (packWord k (v :: vs)) (BitVec.ofNat 8 (lookup k).slotCount) (presentRest (v :: vs) s))
        ((v :: vs).drop (lookup k).slotCount) (pos + (lookup k).slotCount) (words ++ [packWord k (v :: vs)]) := by
  have hstep := (step_presentRest hp (v :: vs)).trans
    (execEncode_of_select_some (inputs_placed _ hlen s) (List.cons_ne_nil v vs) hk)
  rw [presentRest] at hstep ⊢
  rw [encodeLoop, if_neg (Nat.not_le.2 hlen), hstep]
  simp [reads_encodeDone, errOf_eq, -BitVec.toNat_ofNat]

/-- A turn with nothing to select reports OutOfRange where it stands (R140). -/
theorem encodeLoop_of_select_none {fuel pos : Nat} {s : State} {v : Word} {vs words : List Word}
    (hp : s.phase = .idle) (hlen : (v :: vs).length < 2 ^ 64) (hk : select (v :: vs) = none) :
    encodeLoop (fuel + 1) s (v :: vs) pos words = .outOfRange pos words (encodeRaised (presentRest (v :: vs) s)) := by
  have hstep := (step_presentRest hp (v :: vs)).trans
    (execEncode_of_select_none (inputs_placed _ hlen s) (List.cons_ne_nil v vs) hk)
  rw [presentRest] at hstep ⊢
  rw [encodeLoop, if_neg (Nat.not_le.2 hlen), hstep]
  simp [readStatus_encodeRaised, errOf_eq]

/-! ### How ENCODE_STREAM ends -/

/-- The values that a sequence of words stands for. -/
def wordValues (words : List Word) : List Word := words.flatMap unpackValues

/-- What an end of ENCODE_STREAM of `vs` says: the words stand for the whole sequence, or for what is before a first value
out of range; the engine is idle; and there is no third end. -/
def StreamEnd.Describes (vs : List Word) : StreamEnd → Prop
  | .ok words t => t.phase = .idle ∧ wordValues words = vs
  | .outOfRange pos words t =>
    t.phase = .idle ∧ wordValues words = vs.take pos ∧ ∃ v, vs[pos]? = some v ∧ 2 ^ 60 ≤ v.toNat
  | .stuck => False

/-- The word of an eligible selector adds to the values encoded so far those that it packs. -/
theorem wordValues_append_packWord {words vs : List Word} {pos : Nat} {k : Tag} (hwords : wordValues words = vs.take pos)
    (hk : eligible k (vs.drop pos) = true) :
    wordValues (words ++ [packWord k (vs.drop pos)]) = vs.take (pos + (lookup k).slotCount) := by
  calc wordValues (words ++ [packWord k (vs.drop pos)])
      = wordValues words ++ unpackValues (packWord k (vs.drop pos)) := by simp [wordValues]
    _ = vs.take pos ++ (vs.drop pos).take (lookup k).slotCount := by rw [hwords, unpackValues_packWord hk]
    _ = vs.take (pos + (lookup k).slotCount) := List.take_add.symm

/-- With nothing left, the words so far stand for the whole sequence (R140). -/
theorem encodeLoop_describes_of_drop_eq_nil {fuel pos : Nat} {s : State} {vs words : List Word} (hp : s.phase = .idle)
    (hrest : vs.drop pos = []) (hwords : wordValues words = vs.take pos) :
    (encodeLoop fuel s (vs.drop pos) pos words).Describes vs := by
  rw [hrest, encodeLoop]
  exact ⟨hp, hwords.trans (List.take_of_length_le (List.drop_eq_nil_iff.1 hrest))⟩

/-- The loop of R140, with the words so far standing for the values before `pos`: every turn consumes a value, so a turn for
each value left is enough (R143). -/
theorem encodeLoop_describes {vs : List Word} (hvs : vs.length < 2 ^ 64) {fuel pos : Nat} {s : State} {words : List Word}
    (hp : s.phase = .idle) (hfuel : (vs.drop pos).length ≤ fuel) (hwords : wordValues words = vs.take pos) :
    (encodeLoop fuel s (vs.drop pos) pos words).Describes vs := by
  induction fuel generalizing s pos words with
  | zero =>
    exact encodeLoop_describes_of_drop_eq_nil hp (List.eq_nil_of_length_eq_zero (Nat.le_zero.1 hfuel)) hwords
  | succ fuel ih =>
    cases hrest : vs.drop pos with
    | nil => exact hrest ▸ encodeLoop_describes_of_drop_eq_nil hp hrest hwords
    | cons v rest =>
      have hlen : (v :: rest).length < 2 ^ 64 := by
        rw [← hrest, List.length_drop]
        exact (Nat.sub_le _ _).trans_lt hvs
      cases hk : select (v :: rest) with
      | none =>
        have hget : vs[pos]? = some v := by rw [← Nat.add_zero pos, ← List.getElem?_drop, hrest]; rfl
        rw [encodeLoop_of_select_none hp hlen hk]
        exact ⟨hp, hwords, v, hget, select_cons_eq_none_iff.1 hk⟩
      | some k =>
        rw [encodeLoop_of_select_some hp hlen hk, ← hrest, List.drop_drop]
        refine ih hp ?_ (wordValues_append_packWord hwords (hrest ▸ (select_some hk).1))
        have hpos := one_le_slotCount k
        rw [List.length_drop] at hfuel ⊢
        omega

/-- What ENCODE_STREAM of a sequence ends with (R142, R143, R149). -/
theorem encodeStream_describes {s : State} {vs : List Word} (hp : s.phase = .idle) (hvs : vs.length < 2 ^ 64) :
    (encodeStream vs s).Describes vs :=
  encodeLoop_describes (pos := 0) hvs hp le_rfl rfl

/-- The values that words stand for are below 2^60 (R113). -/
theorem toNat_lt_of_mem_wordValues {words : List Word} {v : Word} (hv : v ∈ wordValues words) : v.toNat < 2 ^ 60 := by
  obtain ⟨w, -, hw⟩ := List.mem_flatMap.1 hv
  obtain ⟨i, -, rfl⟩ := List.mem_map.1 hw
  exact Nat.lt_of_le_pred (by decide) (toNat_slotValue_le_max _ i w)

/-- Words stand for at least one value each, and at most 240 (R11). -/
theorem length_wordValues_bounds (words : List Word) :
    words.length ≤ (wordValues words).length ∧ (wordValues words).length ≤ 240 * words.length := by
  induction words with
  | nil => exact ⟨le_rfl, le_rfl⟩
  | cons w words ih =>
    have hmin := one_le_slotCount (tagOf w)
    have hmax : (lookup (tagOf w)).slotCount ≤ 240 := slotCount_le (tagOf w)
    simp only [wordValues, List.flatMap_cons, List.length_append, length_unpackValues, List.length_cons] at ih ⊢
    omega

/-- An ENCODE of at least one value that does not raise consumes at least one, and no more than there are (R143). -/
theorem consumed_bounds_of_execEncode {s t : State} {vs : List Word} {n : BitVec 8} (hi : Inputs s vs) (hne : vs ≠ [])
    (h : execEncode s = .next t) (hn : t.consumed = .written n) : 1 ≤ n.toNat ∧ n.toNat ≤ vs.length := by
  cases hk : select vs with
  | none =>
    rw [execEncode_of_select_none hi hne hk] at h
    cases h
    cases hn
  | some k =>
    rw [execEncode_of_select_some hi hne hk] at h
    cases h
    cases hn
    rw [toNat_ofNat_slotCount]
    exact ⟨one_le_slotCount k, slotCount_le_length (select_some hk).1⟩

/-- An ENCODE of values below 2^60 does not raise (R143). -/
theorem status_of_execEncode_of_lt {s t : State} {vs : List Word} (hi : Inputs s vs) (hrange : ∀ v ∈ vs, v.toNat < 2 ^ 60)
    (h : execEncode s = .next t) : t.status = .written statusOk := by
  obtain ⟨us, hus, hend⟩ := execEncode_next h
  obtain rfl : vs = us := by simpa [encodeInput_of_inputs hi] using hus
  obtain ⟨-, rfl⟩ | ⟨k, -, -, rfl⟩ | ⟨hne, hk, -⟩ := hend
  · rfl
  · rfl
  · obtain ⟨v, rest, rfl⟩ := List.exists_cons_of_ne_nil hne
    exact absurd (select_cons_eq_none_iff.1 hk) (Nat.not_le.2 (hrange v List.mem_cons_self))

/-- Settles O34: the loop has no end beside the two described, and words stand for at least one value each and at most 240. -/
theorem streamProgress : Obligations.StreamProgress := by
  refine ⟨fun s vs hp hvs hstuck => ?_, fun s t vs n hi hne h hn => consumed_bounds_of_execEncode hi hne h hn,
    fun s t vs hi hrange h => status_of_execEncode_of_lt hi hrange h, fun s t vs words hp hvs hok => ?_⟩
  · have hend := encodeStream_describes hp hvs
    rwa [hstuck] at hend
  · have hend := encodeStream_describes hp hvs
    rw [hok] at hend
    obtain ⟨-, rfl⟩ := hend
    exact length_wordValues_bounds words

/-! ### DECODE_STREAM -/

/-- After a DECODE into a VOUT in canonical form, the host copies out the values of the word (R40, R141). -/
theorem decodedValues_unpack {s : State} (hwf : Memory.wf s.vout) (w : Word) :
    decodedValues (unpack w s) = some (unpackValues w) := by
  have hread : ∀ j < (unpackValues w).length, Memory.read (unpack w s).vout j = (unpackValues w)[j]? := by
    intro j hj
    rw [unpack_vout, Memory.read_writeFrom, if_pos ⟨Nat.zero_le j, by rwa [Nat.zero_add]⟩, Nat.sub_zero]
  have hfirst := Memory.firstN_of_read (Memory.wf_writeFrom hwf 0 (unpackValues w)) hread
  rw [length_unpackValues] at hfirst
  simpa only [decodedValues, unpack_produced, length_unpackValues, toNat_ofNat_slotCount, unpack_vout] using hfirst

/-- A step of an idle engine in which the host has placed a DECODE is the UNPACK of its word (R64, R112). -/
theorem step_placeCommand_decode {s : State} (hp : s.phase = .idle) (w : Word) :
    step (placeCommand (.decode w) s) = .next (unpack w (clearResults (placeCommand (.decode w) s))) :=
  (step_of_op_written (s := placeCommand (.decode w) s) (op := 1#1) hp rfl).trans
    (execDecode_of_win (s := placeCommand (.decode w) s) rfl)

/-- DECODE_STREAM of any words, on an idle engine, gives the values they stand for (R141). -/
theorem decodeStream_eq {s : State} (hp : s.phase = .idle) (hwf : Memory.wf s.vout) (words : List Word) :
    ∃ t, decodeStream words s = some (wordValues words, t) := by
  induction words generalizing s with
  | nil => exact ⟨s, rfl⟩
  | cons w words ih =>
    have hstep : step (placeCommand (.decode w) s) = .next (unpack w (clearResults (placeCommand (.decode w) s))) :=
      step_placeCommand_decode hp w
    have hvalues := decodedValues_unpack (s := clearResults (placeCommand (.decode w) s)) hwf w
    obtain ⟨t, ht⟩ := ih (s := unpack w (clearResults (placeCommand (.decode w) s))) hp
      (Memory.wf_writeFrom hwf 0 (unpackValues w))
    refine ⟨t, ?_⟩
    simp only [decodeStream, hstep, Answer.result?, hvalues, ht]
    rfl

/-- Settles O33: with every value in range the end is not OutOfRange, so the words stand for the whole sequence, and
DECODE_STREAM gives what words stand for. -/
theorem streamRoundTrip : Obligations.StreamRoundTrip := by
  intro s vs hp hvs hrange
  have hend := encodeStream_describes hp hvs
  cases he : encodeStream vs s with
  | stuck => rw [he] at hend; exact hend.elim
  | outOfRange pos words t =>
    rw [he] at hend
    obtain ⟨-, -, v, hget, hv⟩ := hend
    have hle := hrange v (List.mem_of_getElem? hget)
    omega
  | ok words t =>
    rw [he] at hend
    obtain ⟨-, rfl⟩ := hend
    exact ⟨words, t, rfl, fun s' hp' hwf' => decodeStream_eq hp' hwf' words⟩

/-- Settles O35: words stand for values in range only, so a value out of range rules out the other end, and the one reported is
the first. -/
theorem streamOutOfRange : Obligations.StreamOutOfRange := by
  intro s vs hp hvs
  have hend := encodeStream_describes hp hvs
  refine ⟨⟨?_, ?_⟩, fun pos words t he => ?_⟩
  · rintro ⟨pos, words, t, he⟩
    rw [he] at hend
    obtain ⟨-, -, v, hget, hv⟩ := hend
    exact ⟨v, List.mem_of_getElem? hget, hv⟩
  · rintro ⟨v, hmem, hv⟩
    cases he : encodeStream vs s with
    | stuck => rw [he] at hend; exact hend.elim
    | outOfRange pos words t => exact ⟨pos, words, t, rfl⟩
    | ok words t =>
      rw [he] at hend
      obtain ⟨-, rfl⟩ := hend
      exact absurd (toNat_lt_of_mem_wordValues hmem) (Nat.not_lt.2 hv)
  · rw [he] at hend
    obtain ⟨hidle, hwords, hfirst⟩ := hend
    refine ⟨hfirst, fun v hv => toNat_lt_of_mem_wordValues (hwords ▸ hv), hidle, fun s' hp' hwf' => ?_⟩
    rw [← hwords]
    exact decodeStream_eq hp' hwf' words

end Sys2Proof.Machine
end

section
/-! PROOFS. The family 60_exceptions.md: which instructions raise OutOfRange, and when (R160, R161); an error is local to the
command that raised it (R165, R168). -/

namespace Sys2Proof.Machine

/-! ### What raises OutOfRange -/

/-- There are values to encode and no selector for them exactly when there is a first value and it is 2^60 or more (R160). -/
theorem ne_nil_and_select_none_iff {vs : List Word} :
    vs ≠ [] ∧ select vs = none ↔ ∃ v rest, vs = v :: rest ∧ 2 ^ 60 ≤ v.toNat := by
  constructor
  · rintro ⟨hne, hk⟩
    obtain ⟨v, rest, rfl⟩ := List.exists_cons_of_ne_nil hne
    exact ⟨v, rest, rfl, select_cons_eq_none_iff.1 hk⟩
  · rintro ⟨v, rest, rfl, hv⟩
    exact ⟨List.cons_ne_nil v rest, select_cons_eq_none_iff.2 hv⟩

/-- STATUS after an ENCODE that completes: OutOfRange, with values given and none of the selectors for them; or no error, with
no values or with a selector (R106, R160). -/
theorem status_of_execEncode {s t : State} {vs : List Word} (hi : Inputs s vs) (h : execEncode s = .next t) :
    (t.status = .written statusOutOfRange ∧ vs ≠ [] ∧ select vs = none) ∨
      (t.status = .written statusOk ∧ ¬ (vs ≠ [] ∧ select vs = none)) := by
  obtain ⟨us, hus, hend⟩ := execEncode_next h
  obtain rfl : vs = us := by simpa [encodeInput_of_inputs hi] using hus
  obtain ⟨rfl, rfl⟩ | ⟨k, -, hk, rfl⟩ | ⟨hne, hk, rfl⟩ := hend
  · exact .inr ⟨rfl, by simp⟩
  · exact .inr ⟨rfl, by simp [hk]⟩
  · exact .inl ⟨rfl, hne, hk⟩

/-- An ENCODE raises OutOfRange exactly when there are values to encode and the scan finds no selector (R160). -/
theorem status_of_execEncode_eq_outOfRange_iff {s t : State} {vs : List Word} (hi : Inputs s vs)
    (h : execEncode s = .next t) : t.status = .written statusOutOfRange ↔ vs ≠ [] ∧ select vs = none := by
  obtain ⟨hstatus, hraise⟩ | ⟨hstatus, hok⟩ := status_of_execEncode hi h
  · exact iff_of_true hstatus hraise
  · exact iff_of_false (by simp [hstatus, statusOk, statusOutOfRange]) hok

/-- Every instruction is well formed (R58, R62, R63). -/
theorem Instr.wellFormed_eq_true (i : Instr) : i.wellFormed = true := by
  cases i <;> rfl

/-- Every instruction is what some encoding decodes to (R62, R63). -/
theorem exists_decodeInstr_eq (i : Instr) : ∃ e, decodeInstr e = i :=
  ⟨encodeInstr i, decodeOfEncodeIsIdentity i (Instr.wellFormed_eq_true i)⟩

/-- An instruction is ENCODE or DECODE, or it runs the generic pack of some selector, or the generic unpack of some word
(R62, R63, R74). -/
theorem exec_forms (i : Instr) :
    i = .encode ∨ i = .decode ∨ (∃ k, ∀ s, exec i s = packAt k s) ∨ ∃ w, ∀ s, exec i s = .next (unpack w s) := by
  obtain ⟨e, rfl⟩ := exists_decodeInstr_eq i
  cases e with
  | command op =>
    obtain ⟨-, hcode⟩ | ⟨-, hcode⟩ := decodeCommand_cases op
    · exact .inl hcode
    · exact .inr (.inl hcode)
  | inputWord w => exact .inr (.inr (.inr ⟨w, exec_decodeInputWord w⟩))
  | outputWord w => exact .inr (.inr (.inl ⟨tagOf w, exec_decodeOutputWord w⟩))

/-- Only ENCODE raises OutOfRange: any other instruction that completes ends with ERR = 0 (R161). -/
theorem status_of_exec_of_ne_encode {i : Instr} {s t : State} (hi : i ≠ .encode) (h : exec i s = .next t) :
    t.status = .written statusOk := by
  obtain rfl | rfl | ⟨k, hexec⟩ | ⟨w, hexec⟩ := exec_forms i
  · exact absurd rfl hi
  · obtain ⟨w, -, rfl⟩ := execDecode_next h
    rfl
  · rw [hexec] at h
    obtain ⟨vs, -, -, rfl⟩ := packAt_next.1 h
    rfl
  · rw [hexec] at h
    cases h
    rfl

/-- Settles O17: an ENCODE raises exactly when the scan of some values finds nothing, which is eligibility as R82 writes it and
is decided by the first value; no other instruction has that exit. -/
theorem outOfRangeRaisedExactlyWhen : Obligations.OutOfRangeRaisedExactlyWhen := by
  refine ⟨fun s t vs hi h => ?_, fun i s t hi h => status_of_exec_of_ne_encode hi h⟩
  have hraise : t.status = .written 1#1 ↔ vs ≠ [] ∧ select vs = none := status_of_execEncode_eq_outOfRange_iff hi h
  refine ⟨?_, hraise.trans ne_nil_and_select_none_iff, (status_of_execEncode hi h).imp And.left And.left⟩
  rw [hraise, select_none_iff_specEligible]

/-! ### An error is local to its command -/

/-- Up to the result registers, which the next issue clears, an ENCODE leaves the state as it was (R22, R87). -/
theorem clearResults_of_execEncode {s t : State} (h : execEncode s = .next t) : clearResults t = clearResults s := by
  rw [execEncode_frame h]
  rfl

/-- What the result registers held is gone once they are cleared (R22). -/
theorem clearResults_withResults (s : State) (a : Reg 64) (b c : Reg 8) (d : Reg 1) :
    clearResults { s with wout := a, consumed := b, produced := c, status := d } = clearResults s := rfl

/-- A command ends alike from states that differ in their result registers only (R22, R168). -/
theorem exec_command_eq_of_clearResults_eq {op : BitVec 1} {s s' : State} (h : clearResults s = clearResults s') :
    exec (decodeCommand op) s = exec (decodeCommand op) s' := by
  rw [← exec_command_clearResults op s, h, exec_command_clearResults]

/-- Settles O37: a command clears the result registers before anything else, and they are all that an ENCODE changes. -/
theorem errorIsLocalToItsCommand : Obligations.ErrorIsLocalToItsCommand := by
  refine ⟨fun s t h => ?_, fun i s a b c d hi => ?_⟩
  · exact (exec_command_eq_of_clearResults_eq (op := 0#1) (clearResults_of_execEncode h)).trans h
  · have hclear := clearResults_withResults s a b c d
    obtain rfl | rfl := hi
    · exact exec_command_eq_of_clearResults_eq (op := 0#1) hclear
    · exact exec_command_eq_of_clearResults_eq (op := 1#1) hclear

end Sys2Proof.Machine
end
